-- ==== Sys2Proof/Word.lean ====
section
/-! DEFINITION. The bit vectors of the machine: words, addresses and characters (spec/10_state.md R20,
spec/20_memory.md R60 and R62). Bit 0 is the least significant bit (spec/00_scope.md R6). -/

namespace Sys2Proof

/-- A 16-bit memory word, or the contents of AC, DR, IR or TR (R20, R39). -/
abbrev Word := BitVec 16

/-- A 12-bit word address, or the contents of AR or PC (R20, R61). -/
abbrev Addr := BitVec 12

/-- An 8-bit character, the contents of INPR or OUTR (R20). Characters are uninterpreted (R242). -/
abbrev Character := BitVec 8

end Sys2Proof
end

