-- ==== Sys2Proof/Syntax.lean ====
section
/-! DEFINITION. The instructions: one constructor per row of spec/opcode_table.json, and the instruction word as the
group it belongs to with the rows it selects (spec/30_encoding.md R91, R94 to R99). -/

namespace Sys2Proof

/-- The addressing mode of a memory-reference instruction, bit 15 of its word (R91, R124). -/
inductive AddrMode where
  | direct
  | indirect
  deriving DecidableEq, Repr

/-- The 25 instructions (R97). A memory-reference instruction carries its mode and its 12-bit address field; an
opcode-7 instruction is one operation, chosen by one select bit of its word. -/
inductive Instr where
  -- memory-reference instructions, opcodes 0 to 6 (R95)
  | and (m : AddrMode) (a : Addr)
  | add (m : AddrMode) (a : Addr)
  | lda (m : AddrMode) (a : Addr)
  | sta (m : AddrMode) (a : Addr)
  | bun (m : AddrMode) (a : Addr)
  | bsa (m : AddrMode) (a : Addr)
  | isz (m : AddrMode) (a : Addr)
  -- register-reference instructions, opcode 7 with I = 0 (R96)
  | cla
  | cle
  | cma
  | cme
  | cir
  | cil
  | inc
  | spa
  | sna
  | sza
  | sze
  | hlt
  -- input-output instructions, opcode 7 with I = 1 (R97)
  | inp
  | out
  | ski
  | sko
  | ion
  | iof
  deriving DecidableEq, Repr

/-- The three groups of instruction words, told apart by the opcode and I (R94). -/
inductive Group where
  | memoryReference
  | registerReference
  | inputOutput
  deriving DecidableEq, Repr

/-- A decoded instruction word: its group and the instructions it performs, in the order it performs them. A
memory-reference word performs one; an opcode-7 word performs every operation it selects, and none if it selects
none (R94, R98, R99, R100). -/
structure InstrWord where
  group : Group
  ops   : List Instr
  deriving DecidableEq, Repr

/-- The group an instruction belongs to (R95, R96, R97). -/
def Instr.group : Instr → Group
  | .and _ _ | .add _ _ | .lda _ _ | .sta _ _ | .bun _ _ | .bsa _ _ | .isz _ _ => .memoryReference
  | .cla | .cle | .cma | .cme | .cir | .cil | .inc | .spa | .sna | .sza | .sze | .hlt => .registerReference
  | .inp | .out | .ski | .sko | .ion | .iof => .inputOutput

end Sys2Proof
end

