-- ==== Sys2Proof/WellFormed.lean ====
section
/-! DEFINITION. Which decoded instruction words there are: the form that every word of memory decodes to
(spec/30_encoding.md R94). Every term of `Instr` alone is well formed, since an address field has exactly twelve bits
(R93); what can be ill formed is the list of instructions one word performs. -/

namespace Sys2Proof

/-- The select bit of an opcode-7 operation (the tables of R96 and R97). A memory-reference instruction has none;
0 stands there, and no check reads it. -/
def Instr.selectBit : Instr → Nat
  | .cla => 11 | .cle => 10 | .cma => 9 | .cme => 8 | .cir => 7 | .cil => 6
  | .inc => 5 | .spa => 4 | .sna => 3 | .sza => 2 | .sze => 1 | .hlt => 0
  | .inp => 11 | .out => 10 | .ski => 9 | .sko => 8 | .ion => 7 | .iof => 6
  | .and _ _ | .add _ _ | .lda _ _ | .sta _ _ | .bun _ _ | .bsa _ _ | .isz _ _ => 0

/-- The select bits strictly fall along the list and stay below `bound` (the order of R185 and R210; a bit selects
its operation once). -/
def selectBitsFall (bound : Nat) : List Instr → Bool
  | [] => true
  | i :: rest => decide (i.selectBit < bound) && selectBitsFall i.selectBit rest

/-- A well-formed decoded word: every instruction belongs to the word's group (checked first), a memory-reference word
holds exactly one, and an opcode-7 word holds its operations in descending order of their select bits. -/
def InstrWord.wellFormed (w : InstrWord) : Bool :=
  w.ops.all (fun i => decide (i.group = w.group)) &&
  match w.group with
  | .memoryReference => decide (w.ops.length = 1)
  | .registerReference => selectBitsFall 12 w.ops
  | .inputOutput => selectBitsFall 12 w.ops

end Sys2Proof
end

