-- ==== Sys2Proof/Decode.lean ====
section
/-! DEFINITION. The decoder, total on all 65536 words (spec/30_encoding.md R94), the encoder written from the same
tables, and the opcode table's masks. Nothing is rejected: "every one of the 65536 words decodes, and none is
illegal" (R94), so there is no rejection to name. -/

namespace Sys2Proof

/-- Bit 15, the field I (R91). -/
def fieldI (w : Word) : Bool := w.getLsbD 15

/-- Bits 14 to 12, the opcode (R91). -/
def fieldOpcode (w : Word) : BitVec 3 := w.extractLsb' 12 3

/-- Bits 11 to 0, the address field or the twelve select bits (R91). -/
def fieldAddress (w : Word) : Addr := w.extractLsb' 0 12

/-- The addressing mode that bit 15 of a memory-reference word names (R91). -/
def modeOf (i : Bool) : AddrMode := if i then .indirect else .direct

/-- The memory-reference instruction of an opcode, and none for opcode 7 (the table of R95). -/
def memoryReference (opcode : BitVec 3) (m : AddrMode) (a : Addr) : Option Instr :=
  match opcode.toNat with
  | 0 => some (.and m a)
  | 1 => some (.add m a)
  | 2 => some (.lda m a)
  | 3 => some (.sta m a)
  | 4 => some (.bun m a)
  | 5 => some (.bsa m a)
  | 6 => some (.isz m a)
  | _ => none

/-- The register-reference operations by select bit, highest bit first (the table of R96). -/
def registerReferenceTable : List (Nat × Instr) :=
  [(11, .cla), (10, .cle), (9, .cma), (8, .cme), (7, .cir), (6, .cil),
   (5, .inc), (4, .spa), (3, .sna), (2, .sza), (1, .sze), (0, .hlt)]

/-- The input-output operations by select bit, highest bit first (the table of R97). Bits 5 to 0 select nothing
(R94; decision D7, log entry 12). -/
def inputOutputTable : List (Nat × Instr) :=
  [(11, .inp), (10, .out), (9, .ski), (8, .sko), (7, .ion), (6, .iof)]

/-- The operations of a table whose select bit is 1 in `m`, in the table's order (R185, R210; decisions D5 and D6, log
entries 10 and 11). -/
def selected (m : Addr) : List (Nat × Instr) → List Instr
  | [] => []
  | (k, i) :: rest => if m.getLsbD k then i :: selected m rest else selected m rest

/-- What a word decodes to (the procedure of R94). -/
def decodeWord (w : Word) : InstrWord :=
  match memoryReference (fieldOpcode w) (modeOf (fieldI w)) (fieldAddress w) with
  | some i => ⟨.memoryReference, [i]⟩
  | none =>
    if fieldI w then ⟨.inputOutput, selected (fieldAddress w) inputOutputTable⟩
    else ⟨.registerReference, selected (fieldAddress w) registerReferenceTable⟩

/-- Bit 15 of a word in this mode (R91). -/
def AddrMode.bit : AddrMode → BitVec 1
  | .direct => 0
  | .indirect => 1

/-- The memory-reference word `I ++ opcode ++ a` (R95). -/
def memoryReferenceWord (opcode : BitVec 3) (m : AddrMode) (a : Addr) : Word := m.bit ++ opcode ++ a

/-- The word of one instruction: for an opcode-7 operation its canonical word (R95, R96, R97). -/
def Instr.encode : Instr → Word
  | .and m a => memoryReferenceWord 0 m a
  | .add m a => memoryReferenceWord 1 m a
  | .lda m a => memoryReferenceWord 2 m a
  | .sta m a => memoryReferenceWord 3 m a
  | .bun m a => memoryReferenceWord 4 m a
  | .bsa m a => memoryReferenceWord 5 m a
  | .isz m a => memoryReferenceWord 6 m a
  | .cla => 0x7800
  | .cle => 0x7400
  | .cma => 0x7200
  | .cme => 0x7100
  | .cir => 0x7080
  | .cil => 0x7040
  | .inc => 0x7020
  | .spa => 0x7010
  | .sna => 0x7008
  | .sza => 0x7004
  | .sze => 0x7002
  | .hlt => 0x7001
  | .inp => 0xF800
  | .out => 0xF400
  | .ski => 0xF200
  | .sko => 0xF100
  | .ion => 0xF080
  | .iof => 0xF040

/-- The bits common to all words of a group that select something: the empty word of an opcode-7 group (R98, R99,
R100). -/
def Group.base : Group → Word
  | .memoryReference => 0x0000
  | .registerReference => 0x7000
  | .inputOutput => 0xF000

/-- The word of a decoded instruction word: the OR of the words of its instructions over the group's base (R98,
R99). For a well-formed memory-reference word that is its one instruction's word. -/
def InstrWord.encode (w : InstrWord) : Word := w.ops.foldr (fun i acc => i.encode ||| acc) w.group.base

/-- The mask of an instruction's row of spec/opcode_table.json. -/
def Instr.tableMask : Instr → Word
  | .and _ _ | .add _ _ | .lda _ _ | .sta _ _ | .bun _ _ | .bsa _ _ | .isz _ _ => 0x7000
  | .cla => 0xF800
  | .cle => 0xF400
  | .cma => 0xF200
  | .cme => 0xF100
  | .cir => 0xF080
  | .cil => 0xF040
  | .inc => 0xF020
  | .spa => 0xF010
  | .sna => 0xF008
  | .sza => 0xF004
  | .sze => 0xF002
  | .hlt => 0xF001
  | .inp => 0xF800
  | .out => 0xF400
  | .ski => 0xF200
  | .sko => 0xF100
  | .ion => 0xF080
  | .iof => 0xF040

/-- The match of an instruction's row of spec/opcode_table.json: a word selects the row when its masked bits are
these. -/
def Instr.tableMatch : Instr → Word
  | .and _ _ => 0x0000
  | .add _ _ => 0x1000
  | .lda _ _ => 0x2000
  | .sta _ _ => 0x3000
  | .bun _ _ => 0x4000
  | .bsa _ _ => 0x5000
  | .isz _ _ => 0x6000
  | .cla => 0x7800
  | .cle => 0x7400
  | .cma => 0x7200
  | .cme => 0x7100
  | .cir => 0x7080
  | .cil => 0x7040
  | .inc => 0x7020
  | .spa => 0x7010
  | .sna => 0x7008
  | .sza => 0x7004
  | .sze => 0x7002
  | .hlt => 0x7001
  | .inp => 0xF800
  | .out => 0xF400
  | .ski => 0xF200
  | .sko => 0xF100
  | .ion => 0xF080
  | .iof => 0xF040

/-- The word that an opcode-table row's bits `w` (of `nbits` bits, bit 0 the least significant) stand for: one 16-bit
word, the bits above `nbits` zero. -/
def tableWord (nbits w : Nat) : Word := BitVec.ofNat 16 (w % 2 ^ nbits)

/-- The instruction the decoder reads from those bits. An opcode-7 word may select several operations: this is the
first one it performs; and none where it selects no operation (log entry 23). -/
def decodeTableWord (nbits w : Nat) : Option Instr := (decodeWord (tableWord nbits w)).ops.head?

end Sys2Proof
end

