-- ==== Sys2Proof/Config.lean ====
section
/-! DEFINITION. What the spec fixes for this hardware (spec/00_scope.md R4) and the values this model gives to the
parameters the spec leaves open (R5). The remaining parameters of R5 are not numbers: RRI_COMBINE, IOI_COMBINE and
IOI_LOW_BITS are the rules R185, R210 and R94 themselves (log entries 10, 11, 12), IRQ_SAMPLE is R224 (log entry 14),
INITIAL_MEMORY and INPUT_STREAM are the arguments of `Machine.initialise` (log entries 2 and 19). -/

namespace Sys2Proof.Config

/-- The number of words of the memory (R4, R39). -/
def memorySize : Nat := 4096

/-- START_ADDRESS, the value of PC after initialisation (R43). DESIGN CHOICE: the default of decision D14,
"PC = 0 (or specified start address)"; log entry 4. Unsafe for a claim about one particular launch. -/
def startAddress : Addr := 0x000

/-- What a memory word that is not listed reads as. DESIGN CHOICE: INITIAL_MEMORY is open (D13) and the spec's
vectors zero unlisted words only to be reproducible; log entry 2. Unsafe. -/
def unlistedWord : Word := 0x0000

/-- RESET_FLAGS, the flip-flops whose value after initialisation the source does not give (R43, decision D12).
S is not among them: the source says "S = 1 (start flag)". -/
structure ResetFlags where
  I   : Bool := false
  E   : Bool := false
  IEN : Bool := false
  R   : Bool := false
  FGI : Bool := false
  FGO : Bool := true
  deriving DecidableEq, Repr

/-- The default of RESET_FLAGS: E = I = IEN = R = FGI = 0 and FGO = 1. DESIGN CHOICE, decision D12; log entry 3.
Unsafe. -/
def resetFlags : ResetFlags := {}

end Sys2Proof.Config
end

