-- ==== Sys2Proof/Machine/State.lean ====
section
/-! DEFINITION. The machine state as one record of plain data (spec/10_state.md R42), its values after initialisation
(R43), and the reasons a step can stop. -/

namespace Sys2Proof.Machine

/-- The memory: the words that differ from what an unlisted word reads as, as (address, word) pairs with strictly
rising addresses. A cell is one 16-bit word, because the machine has no bytes (spec/20_memory.md R62, R63; log entry
1). The form is `Memory.wf` of Machine/Ops.lean. -/
abbrev Memory := List (Nat × Word)

/-- The two events the CPU records for an observer (spec/00_scope.md R12): the character and the value the flag had
when the instruction executed. -/
inductive Event where
  | inp (c : Character) (flag : Bool)
  | out (c : Character) (flag : Bool)
  deriving DecidableEq, Repr

/-- Whose step comes next (spec/00_scope.md R11): the CPU's, the input device's with the character it delivers (R240),
or the output device's (R241). -/
inductive Turn where
  | cpu
  | inputDevice (c : Character)
  | outputDevice
  deriving DecidableEq, Repr

/-- The machine state (spec/10_state.md R42), with two fields of the model's own at the end. -/
structure State where
  /-- Accumulator (R22). -/
  AC : Word
  /-- Data register (R23). -/
  DR : Word
  /-- Address register (R24). -/
  AR : Addr
  /-- Instruction register (R25). -/
  IR : Word
  /-- Program counter (R26). -/
  PC : Addr
  /-- Temporary register (R27). -/
  TR : Word
  /-- Input register (R28). -/
  INPR : Character
  /-- Output register (R29). -/
  OUTR : Character
  /-- Indirect flip-flop, a copy of IR(15) (R31). -/
  I : Bool
  /-- Extended accumulator bit: carry, and the 17th bit of the shifts (R32). -/
  E : Bool
  /-- Interrupt enable (R33). -/
  IEN : Bool
  /-- Interrupt flip-flop: the next CPU step is an interrupt cycle (R34). -/
  R : Bool
  /-- Start-stop flip-flop: the machine runs (R35). -/
  S : Bool
  /-- Input flag (R36). -/
  FGI : Bool
  /-- Output flag (R37). -/
  FGO : Bool
  /-- The 4096 words of memory (R39). -/
  M : Memory
  /-- The MODEL's own: the observer's event history, oldest first (spec/00_scope.md R12; log entry 20). No instruction
  reads it. -/
  hist : List Event
  /-- The MODEL's own: the agents whose turns come next, the first first; once it is empty every turn is the CPU's
  (spec/00_scope.md R11, parameter INPUT_STREAM of R5; log entry 19). -/
  turns : List Turn
  deriving DecidableEq, Repr

/-- Why a step stops. The hardware has no fault, trap or error state (spec/60_exceptions.md R220); the one reason is
the end of the run. -/
inductive Fault where
  /-- Raised by `step` when S = 0 and no turn of a device is left in `turns`: a halted CPU has no step
  (spec/40_instruction_cycle.md R127), so no agent has one. It is the normal end of a run (spec/00_scope.md R13), not
  an error. Safe: the hardware makes no further change either (log entry 16). -/
  | halted
  deriving DecidableEq, Repr

/-- Why an instruction is refused. No instruction of this model is: every row of the opcode table has its meaning. -/
inductive Refusal where
  /-- Raised by an arm of `exec` for an instruction that has no meaning yet; no arm does. Safe: the machine stops where
  the hardware would go on. -/
  | notModelled (mnemonic : String)
  deriving DecidableEq, Repr

/-- The machine right after initialisation, every parameter at its default (R43): all registers 0, PC at
START_ADDRESS, S = 1, the other flip-flops as RESET_FLAGS says, no memory word listed, no event and no turn. -/
def State.reset : State where
  AC := 0
  DR := 0
  AR := 0
  IR := 0
  PC := Config.startAddress
  TR := 0
  INPR := 0
  OUTR := 0
  I := Config.resetFlags.I
  E := Config.resetFlags.E
  IEN := Config.resetFlags.IEN
  R := Config.resetFlags.R
  S := true
  FGI := Config.resetFlags.FGI
  FGO := Config.resetFlags.FGO
  M := []
  hist := []
  turns := []

end Sys2Proof.Machine
end

