-- ==== Sys2Proof/Machine/Ops.lean ====
section
/-! DEFINITION. The named operations every instruction is built from: reading and writing memory, the width changes
between registers and words, skipping, recording events, initialisation, the fetch, the interrupt request and the
interrupt cycle. -/

namespace Sys2Proof.Machine

/-! ## Memory (spec/20_memory.md) -/

/-- The cells of a list start at `lowest` or above, rise strictly, stay below the memory size, and none equals what an
unlisted word reads as. -/
def Memory.wfFrom (lowest : Nat) : Memory → Bool
  | [] => true
  | (a, v) :: rest =>
    decide (lowest ≤ a) && decide (a < Config.memorySize) && decide (v ≠ Config.unlistedWord) &&
      Memory.wfFrom (a + 1) rest

/-- The canonical form of a memory: equal memories are equal lists. -/
def Memory.wf (m : Memory) : Bool := Memory.wfFrom 0 m

/-- The word a list of cells holds for an address. -/
def Memory.lookup (k : Nat) : Memory → Word
  | [] => Config.unlistedWord
  | (a, v) :: rest => if a = k then v else Memory.lookup k rest

/-- `MemRead(a, 1)`: the word at an address (spec/00_scope.md R8). Every address is valid (R61); reading changes
nothing (R66). -/
def Memory.read (m : Memory) (a : Addr) : Word := Memory.lookup a.toNat m

/-- Puts a cell into a list of cells at its place, over the cell that was there. -/
def Memory.insert (k : Nat) (w : Word) : Memory → Memory
  | [] => [(k, w)]
  | (a, v) :: rest =>
    if k < a then (k, w) :: (a, v) :: rest
    else if k = a then (k, w) :: rest
    else (a, v) :: Memory.insert k w rest

/-- `MemWrite(a, 1, w)`: replaces the whole word at an address (spec/00_scope.md R8, R66). Writing what an unlisted
word reads as removes the cell, which keeps the canonical form. -/
def Memory.write (m : Memory) (a : Addr) (w : Word) : Memory :=
  if w = Config.unlistedWord then m.filter (fun c => decide (c.1 ≠ a.toNat))
  else Memory.insert a.toNat w m

/-- The low 12 bits of a word, as they enter a 12-bit register: bits 15 to 12 are ignored (R65; decision D1, log entry
6). -/
def addressOf (w : Word) : Addr := w.extractLsb' 0 12

/-- A 12-bit register stored into a word, with zeros above it (R65; decision D2, log entry 7). -/
def wordOf (a : Addr) : Word := a.setWidth 16

/-! ## Small updates -/

/-- `if c then PC ← PC + 1`, modulo 4096: a taken skip (spec/10_state.md R26; decision D3, log entry 8). -/
def State.skipIf (s : State) (c : Bool) : State := { s with PC := if c then s.PC + 1 else s.PC }

/-- `M[AR] ← w`: every write uses the address held in AR (spec/20_memory.md R67). -/
def State.storeAtAR (s : State) (w : Word) : State := { s with M := s.M.write s.AR w }

/-- `DR ← M[AR]`: the operand read (spec/20_memory.md R67). -/
def State.loadDR (s : State) : State := { s with DR := s.M.read s.AR }

/-- `Event(e)`: appends to the observer's history (spec/00_scope.md R8, R12). -/
def State.record (s : State) (e : Event) : State := { s with hist := s.hist ++ [e] }

/-! ## Initialisation (spec/70_reset_and_hazards.md R260, R262) -/

/-- The host's initialisation with every parameter an argument: START_ADDRESS, INITIAL_MEMORY, RESET_FLAGS, and the
devices' schedule with INPUT_STREAM (spec/00_scope.md R5). `State.reset` is its value at the defaults. -/
def initialise (start : Addr) (image : Memory) (flags : Config.ResetFlags) (schedule : List Turn) : State :=
  { State.reset with
    PC := start
    M := image
    I := flags.I
    E := flags.E
    IEN := flags.IEN
    R := flags.R
    FGI := flags.FGI
    FGO := flags.FGO
    turns := schedule }

/-! ## Fetch and decode steps (spec/40_instruction_cycle.md R120 to R122) -/

/-- T0, T1 and T2: `AR ← PC`; `IR ← M[AR], PC ← PC + 1`; `AR ← IR(0-11), I ← IR(15)`. -/
def fetch (s : State) : State :=
  let t0 := { s with AR := s.PC }
  let t1 := { t0 with IR := t0.M.read t0.AR, PC := t0.PC + 1 }
  { t1 with AR := fieldAddress t1.IR, I := fieldI t1.IR }

/-! ## The interrupt facility (spec/60_exceptions.md section 2) -/

/-- The value an instruction cycle leaves in R, read from the state before the cycle: IEN and one of the two flags
(R223, R224; decision D9, log entry 14). -/
def interruptRequest (s : State) : Bool := s.IEN && (s.FGI || s.FGO)

/-- The address the interrupt cycle stores the return address at (R226; decision D10, log entry 15). -/
def interruptSaveAddress : Addr := 0x000

/-- Taking the interrupt: the interrupt cycle, in its three timing steps (R226; decision D10, log entry 15). There is no
return instruction beside it: a handler returns with ION and `BUN 0 I` (R228). -/
def interruptCycle (s : State) : State :=
  let t0 := { s with AR := interruptSaveAddress, TR := wordOf s.PC }
  let t1 := { t0.storeAtAR t0.TR with PC := interruptSaveAddress }
  { t1 with PC := t1.PC + 1, IEN := false, R := false }

end Sys2Proof.Machine
end

