-- ==== Sys2Proof/Machine/Devices.lean ====
section
/-! DEFINITION. The two devices (spec/60_exceptions.md R240, R241). Each has one step; `none` says that the device has
no step in this state, because its flag is up. -/

namespace Sys2Proof.Machine

/-- The input device delivers the character `c`: `INPR ← c, FGI ← 1`, only while FGI is down, so that no character is
overwritten before INP has taken it (R240; decision D15, log entry 18). -/
def inputDeviceStep (c : Character) (s : State) : Option State :=
  if s.FGI then none else some { s with INPR := c, FGI := true }

/-- The output device takes the character in OUTR and becomes ready: `FGO ← 1`, only while FGO is down (R241; decision
D16, log entry 18). -/
def outputDeviceStep (s : State) : Option State :=
  if s.FGO then none else some { s with FGO := true }

end Sys2Proof.Machine
end

