-- ==== Sys2Proof/Machine/Flags.lean ====
section
/-! DEFINITION. The arithmetic and the bits that E receives and the skips test (spec/10_state.md R32,
spec/41_memory_reference.md R141, spec/42_register_reference.md R174 to R180). -/

namespace Sys2Proof.Machine

/-- The 17-bit unsigned sum of two words (R141). -/
def sum17 (x y : Word) : BitVec 17 := x.setWidth 17 + y.setWidth 17

/-- The low 16 bits of the sum (R141). -/
def sumWord (x y : Word) : Word := (sum17 x y).extractLsb' 0 16

/-- Bit 16 of the sum, the carry out of bit 15; signed overflow is recorded nowhere (R141; spec/90_conflicts.md
C8). -/
def carryOut (x y : Word) : Bool := (sum17 x y).getLsbD 16

/-- `E ++ AC[15:1]`: the word after a circular right shift (R174). -/
def rotatedRight (e : Bool) (x : Word) : Word := BitVec.ofBool e ++ x.extractLsb' 1 15

/-- `AC[14:0] ++ E`: the word after a circular left shift (R175). -/
def rotatedLeft (e : Bool) (x : Word) : Word := x.extractLsb' 0 15 ++ BitVec.ofBool e

/-- Bit 0, which a circular right shift moves into E (R174). -/
def lowBit (x : Word) : Bool := x.getLsbD 0

/-- Bit 15, which a circular left shift moves into E and SPA and SNA test: the sign in two's complement (R175, R177,
R178; spec/00_scope.md R14). -/
def highBit (x : Word) : Bool := x.getLsbD 15

/-- The word is zero, the test of ISZ and SZA (spec/41_memory_reference.md R146, R179). -/
def isZero (x : Word) : Bool := decide (x = 0)

/-- `AC[7:0]`, the half of AC that a character occupies (spec/43_input_output.md R200, R201). -/
def lowByte (x : Word) : Character := x.extractLsb' 0 8

/-- `AC[15:8] ++ c`: the low byte replaced, the high byte kept (spec/43_input_output.md R200). -/
def withLowByte (x : Word) (c : Character) : Word := x.extractLsb' 8 8 ++ c

end Sys2Proof.Machine
end

