-- ==== Sys2Proof/Machine/InputOutput.lean ====
section
/-! DEFINITION. The input-output instructions, one operation each (spec/43_input_output.md R200 to R205). INP and OUT do
not wait for their flags (log entry 21). -/

namespace Sys2Proof.Machine

/-- INP: `AC(0-7) ← INPR, FGI ← 0`, and the event with the flag as it was (R200). -/
def execInp (s : State) : Host.Outcome State Fault Refusal :=
  let t := s.record (.inp s.INPR s.FGI)
  .next { t with AC := withLowByte t.AC t.INPR, FGI := false }

/-- OUT: `OUTR ← AC(0-7), FGO ← 0`, and the event with the flag as it was (R201). -/
def execOut (s : State) : Host.Outcome State Fault Refusal :=
  let t := s.record (.out (lowByte s.AC) s.FGO)
  .next { t with OUTR := lowByte t.AC, FGO := false }

/-- SKI: `if FGI = 1 then PC ← PC + 1` (R202). -/
def execSki (s : State) : Host.Outcome State Fault Refusal := .next (s.skipIf s.FGI)

/-- SKO: `if FGO = 1 then PC ← PC + 1` (R203). -/
def execSko (s : State) : Host.Outcome State Fault Refusal := .next (s.skipIf s.FGO)

/-- ION: `IEN ← 1` (R204). -/
def execIon (s : State) : Host.Outcome State Fault Refusal := .next { s with IEN := true }

/-- IOF: `IEN ← 0`; R is not cleared (R205). -/
def execIof (s : State) : Host.Outcome State Fault Refusal := .next { s with IEN := false }

end Sys2Proof.Machine
end

