-- ==== Sys2Proof/Machine/Operands.lean ====
section
/-! DEFINITION. The operand forms: the effective address of a memory-reference instruction, direct and indirect
(spec/40_instruction_cycle.md R123, R124), and the memory operand it reads. -/

namespace Sys2Proof.Machine

/-- The effective address of an instruction with address field `a` (R124): the field itself, or the low 12 bits of the
word it points at. Indirection is one level deep. -/
def effectiveAddress (m : AddrMode) (a : Addr) (s : State) : Addr :=
  match m with
  | .direct => a
  | .indirect => addressOf (s.M.read a)

/-- T3: the effective address is in AR when the execute phase begins (R123, R124). In the direct mode AR already holds
`a` after T2, so this changes nothing there (log entry 22). -/
def State.withEA (s : State) (m : AddrMode) (a : Addr) : State := { s with AR := effectiveAddress m a s }

/-- The effective address in AR and the operand word in DR (R124; spec/20_memory.md R67). -/
def State.loadOperand (s : State) (m : AddrMode) (a : Addr) : State := (s.withEA m a).loadDR

end Sys2Proof.Machine
end

