-- ==== Sys2Proof/Machine/MemoryReference.lean ====
section
/-! DEFINITION. The memory-reference instructions (spec/41_memory_reference.md R140 to R146). Each meaning starts after
T2: PC already holds the address of the instruction plus one, IR and I the word and its bit 15; the update of R stands
in Machine/Cycle.lean (log entry 22). -/

namespace Sys2Proof.Machine

/-- AND: `DR ← M[EA]`, `AC ← AC ∧ DR` (R140; DR by decision D17, log entry 17). -/
def execAnd (m : AddrMode) (a : Addr) (s : State) : Host.Outcome State Fault Refusal :=
  let t := s.loadOperand m a
  .next { t with AC := t.AC &&& t.DR }

/-- ADD: `DR ← M[EA]`, `AC ← AC + DR`, `E ← carry` (R141). -/
def execAdd (m : AddrMode) (a : Addr) (s : State) : Host.Outcome State Fault Refusal :=
  let t := s.loadOperand m a
  .next { t with AC := sumWord t.AC t.DR, E := carryOut t.AC t.DR }

/-- LDA: `DR ← M[EA]`, `AC ← DR` (R142). -/
def execLda (m : AddrMode) (a : Addr) (s : State) : Host.Outcome State Fault Refusal :=
  let t := s.loadOperand m a
  .next { t with AC := t.DR }

/-- STA: `M[EA] ← AC` (R143). -/
def execSta (m : AddrMode) (a : Addr) (s : State) : Host.Outcome State Fault Refusal :=
  let t := s.withEA m a
  .next (t.storeAtAR t.AC)

/-- BUN: `PC ← EA` (R144). -/
def execBun (m : AddrMode) (a : Addr) (s : State) : Host.Outcome State Fault Refusal :=
  let t := s.withEA m a
  .next { t with PC := t.AR }

/-- BSA: `M[EA] ← PC`, `PC ← EA + 1`, and AR is left at `EA + 1` (R145; AR by decision D17, log entry 17). -/
def execBsa (m : AddrMode) (a : Addr) (s : State) : Host.Outcome State Fault Refusal :=
  let t := s.withEA m a
  .next { t.storeAtAR (wordOf t.PC) with PC := t.AR + 1, AR := t.AR + 1 }

/-- ISZ: `DR ← M[EA]`, `DR ← DR + 1`, `M[EA] ← DR`, and a skip if DR is 0 (R146; DR by decision D17, log entry 17). -/
def execIsz (m : AddrMode) (a : Addr) (s : State) : Host.Outcome State Fault Refusal :=
  let t := s.loadOperand m a
  let u := { t with DR := t.DR + 1 }
  .next ((u.storeAtAR u.DR).skipIf (isZero u.DR))

end Sys2Proof.Machine
end

