-- ==== Sys2Proof/Machine/RegisterReference.lean ====
section
/-! DEFINITION. The register-reference instructions, one operation each (spec/42_register_reference.md R170 to R181). A
word that selects several performs them one after another (R185), in Machine/Cycle.lean. The right-hand sides of one
operation all read the state before it (spec/00_scope.md R9; log entry 26). -/

namespace Sys2Proof.Machine

/-- CLA: `AC ← 0` (R170). -/
def execCla (s : State) : Host.Outcome State Fault Refusal := .next { s with AC := 0 }

/-- CLE: `E ← 0` (R171). -/
def execCle (s : State) : Host.Outcome State Fault Refusal := .next { s with E := false }

/-- CMA: `AC ← AC'` (R172). -/
def execCma (s : State) : Host.Outcome State Fault Refusal := .next { s with AC := ~~~s.AC }

/-- CME: `E ← E'` (R173). -/
def execCme (s : State) : Host.Outcome State Fault Refusal := .next { s with E := !s.E }

/-- CIR: `AC ← shr(AC), AC(15) ← E, E ← AC(0)` (R174). -/
def execCir (s : State) : Host.Outcome State Fault Refusal :=
  .next { s with AC := rotatedRight s.E s.AC, E := lowBit s.AC }

/-- CIL: `AC ← shl(AC), AC(0) ← E, E ← AC(15)` (R175). -/
def execCil (s : State) : Host.Outcome State Fault Refusal :=
  .next { s with AC := rotatedLeft s.E s.AC, E := highBit s.AC }

/-- INC: `AC ← AC + 1`, E unchanged also when AC wraps (R176; decision D8, log entry 13). -/
def execInc (s : State) : Host.Outcome State Fault Refusal := .next { s with AC := s.AC + 1 }

/-- SPA: `if AC(15) = 0 then PC ← PC + 1` (R177). -/
def execSpa (s : State) : Host.Outcome State Fault Refusal := .next (s.skipIf (!highBit s.AC))

/-- SNA: `if AC(15) = 1 then PC ← PC + 1` (R178). -/
def execSna (s : State) : Host.Outcome State Fault Refusal := .next (s.skipIf (highBit s.AC))

/-- SZA: `if AC = 0 then PC ← PC + 1` (R179). -/
def execSza (s : State) : Host.Outcome State Fault Refusal := .next (s.skipIf (isZero s.AC))

/-- SZE: `if E = 0 then PC ← PC + 1` (R180). -/
def execSze (s : State) : Host.Outcome State Fault Refusal := .next (s.skipIf (!s.E))

/-- HLT: `S ← 0` (R181). -/
def execHlt (s : State) : Host.Outcome State Fault Refusal := .next { s with S := false }

end Sys2Proof.Machine
end

