-- ==== Sys2Proof/Machine/Dispatch.lean ====
section
/-! DEFINITION. One arm per instruction, each a call of its meaning (spec/40_instruction_cycle.md R126). -/

namespace Sys2Proof.Machine

def exec (i : Instr) (s : State) : Host.Outcome State Fault Refusal :=
  match i with
  | .and m a => Sys2Proof.Machine.execAnd m a s
  | .add m a => Sys2Proof.Machine.execAdd m a s
  | .lda m a => Sys2Proof.Machine.execLda m a s
  | .sta m a => Sys2Proof.Machine.execSta m a s
  | .bun m a => Sys2Proof.Machine.execBun m a s
  | .bsa m a => Sys2Proof.Machine.execBsa m a s
  | .isz m a => Sys2Proof.Machine.execIsz m a s
  | .cla => Sys2Proof.Machine.execCla s
  | .cle => Sys2Proof.Machine.execCle s
  | .cma => Sys2Proof.Machine.execCma s
  | .cme => Sys2Proof.Machine.execCme s
  | .cir => Sys2Proof.Machine.execCir s
  | .cil => Sys2Proof.Machine.execCil s
  | .inc => Sys2Proof.Machine.execInc s
  | .spa => Sys2Proof.Machine.execSpa s
  | .sna => Sys2Proof.Machine.execSna s
  | .sza => Sys2Proof.Machine.execSza s
  | .sze => Sys2Proof.Machine.execSze s
  | .hlt => Sys2Proof.Machine.execHlt s
  | .inp => Sys2Proof.Machine.execInp s
  | .out => Sys2Proof.Machine.execOut s
  | .ski => Sys2Proof.Machine.execSki s
  | .sko => Sys2Proof.Machine.execSko s
  | .ion => Sys2Proof.Machine.execIon s
  | .iof => Sys2Proof.Machine.execIof s

end Sys2Proof.Machine
end

