-- ==== Sys2Proof/Machine/Cycle.lean ====
section
/-! DEFINITION. The instruction cycle and the steps of the three agents (spec/40_instruction_cycle.md R125, R127;
spec/00_scope.md R11). -/

namespace Sys2Proof.Machine

/-- Performs the instructions of one word one after another, each on the state the one before it left (R185, R210). -/
def execAll : List Instr → State → Host.Outcome State Fault Refusal
  | [], s => .next s
  | i :: rest, s =>
    match exec i s with
    | .next t => execAll rest t
    | .fault f => .fault f
    | .refused r => .refused r

/-- One instruction cycle: fetch, decode, execute, and R from the state before the cycle (R125, R224). -/
def instructionCycle (s : State) : Host.Outcome State Fault Refusal :=
  match execAll (decodeWord (fetch s).IR).ops (fetch s) with
  | .next t => .next { t with R := interruptRequest s }
  | .fault f => .fault f
  | .refused r => .refused r

/-- One CPU step: an interrupt cycle if R = 1, an instruction cycle otherwise; a halted CPU has none (R125, R127). -/
def cpuStep (s : State) : Host.Outcome State Fault Refusal :=
  if s.S then
    if s.R then .next (interruptCycle s) else instructionCycle s
  else .fault .halted

/-- The turn of an agent that may have no step: where it has none, its turn passes and nothing changes (log entry
19). -/
def passing (s : State) (taken : Option State) : Host.Outcome State Fault Refusal := .next (taken.getD s)

/-- The step of the agent whose turn it is: each turn is used up, and once none is left every turn is the CPU's
(spec/00_scope.md R11; log entry 19). A CPU turn in a halted machine passes while turns are left, since "the devices
may still step" (R127); with none left no agent has a step, and the run has ended. -/
def agentStep (s : State) : Host.Outcome State Fault Refusal :=
  match s.turns with
  | [] => cpuStep s
  | .cpu :: rest => if s.S then cpuStep { s with turns := rest } else passing { s with turns := rest } none
  | .inputDevice c :: rest => passing { s with turns := rest } (inputDeviceStep c { s with turns := rest })
  | .outputDevice :: rest => passing { s with turns := rest } (outputDeviceStep { s with turns := rest })

/-- The state with an instruction word at PC and the CPU about to fetch it: S = 1, R = 0 and no other agent's turn
first (log entry 5). -/
def withWordAtPC (s : State) (w : Word) : State :=
  { s with M := s.M.write s.PC w, S := true, R := false, turns := [] }

end Sys2Proof.Machine
end

