-- ==== Sys2Proof/Machine/Step.lean ====
section
/-! DEFINITION. The step of the machine, and how the host places an instruction for it. -/

namespace Sys2Proof.Machine

/-- One step of the machine: one step of the agent whose turn it is. -/
def step (s : State) : Host.Outcome State Fault Refusal := agentStep s

/-- The state with the instruction of bits `w` stored where the next step fetches (log entry 5). -/
def State.withFetchWord (s : State) (nbits w : Nat) : State := withWordAtPC s (tableWord nbits w)

end Sys2Proof.Machine
end

