-- ==== Sys2Proof/Machine/Assembler.lean ====
section
/-! DEFINITION. The assembly language: lines, the four directives, symbols, and the two-pass procedure that turns a
source text into the words of memory (spec/30_encoding.md R102 to R107). No step of the machine uses it. Conventions the
source leaves open are decision D18 (log entry 25) or, where D18 too is silent, the model's choice (log entry 28). -/

namespace Sys2Proof.Machine

/-- Why a source text does not assemble. The source names no error; a text outside R102 to R106 is not assembled.
DESIGN CHOICE, log entry 28. -/
inductive AsmError where
  /-- A line of none of the forms of R102 to R105. -/
  | badLine (text : List Char)
  /-- An operand that is neither a label of the program nor a hexadecimal number (R103). -/
  | undefinedSymbol (name : List Char)
  /-- A label defined twice (DESIGN CHOICE, log entry 28; R106 has a label name one address). -/
  | duplicateLabel (name : List Char)
  /-- A word or a label past the last address (R61, R106). -/
  | pastEndOfMemory
  deriving DecidableEq, Repr

/-- What a non-blank line asks for (R103 to R105). -/
inductive Statement where
  | org (a : Addr)
  | stop
  | constant (w : Word)
  | operation (i : Instr)
  | memoryReference (opcode : BitVec 3) (m : AddrMode) (operand : List Char)
  deriving DecidableEq, Repr

/-- A non-blank line: an optional label and a statement (R102). -/
structure Line where
  label : Option (List Char)
  statement : Statement
  deriving DecidableEq, Repr

/-! ## Numbers -/

/-- The value of a digit in a base of at most sixteen. The letters of a hexadecimal number are the capitals A to F, as in
the source's `HEX 1A3F`. DESIGN CHOICE (case is open, spec/91_not_in_source.md N13): a small letter is no digit; log entry
28. -/
def digitValue (base : Nat) (c : Char) : Option Nat :=
  let v := if '0' ≤ c ∧ c ≤ '9' then some (c.toNat - '0'.toNat)
    else if 'A' ≤ c ∧ c ≤ 'F' then some (c.toNat - 'A'.toNat + 10)
    else none
  v.filter (fun d => decide (d < base))

/-- The value of a run of digits, most significant first, after `sofar`. -/
def digitsValue (base sofar : Nat) : List Char → Option Nat
  | [] => some sofar
  | c :: rest =>
    match digitValue base c with
    | some d => digitsValue base (sofar * base + d) rest
    | none => none

/-- A number of at least one digit. -/
def numberIn (base : Nat) (cs : List Char) : Option Nat := if cs.isEmpty then none else digitsValue base 0 cs

/-- The word of `DEC n`: the 16-bit two's complement of n, for n from -32768 to 32767 (R105; decision D18). -/
def decimalWord (n : Int) : Option Word := if -32768 ≤ n ∧ n ≤ 32767 then some (BitVec.ofInt 16 n) else none

/-- The word of `HEX n`, for n from 0 to FFFF (R105; decision D18). -/
def hexWord (n : Nat) : Option Word := if n ≤ 0xFFFF then some (BitVec.ofNat 16 n) else none

/-- A signed decimal number. -/
def signedDecimal : List Char → Option Int
  | '-' :: cs => (numberIn 10 cs).map (fun n => -(n : Int))
  | cs => (numberIn 10 cs).map (fun n => (n : Int))

/-! ## One line (R102) -/

/-- A blank between the parts of a line. -/
def isBlank (c : Char) : Bool := c == ' ' || c == '\t' || c == '\r'

/-- The words of a text, the parts between blanks; `current` is the word being read, its last character first. -/
def wordsOfText (current : List Char) : List Char → List (List Char)
  | [] => if current.isEmpty then [] else [current.reverse]
  | c :: rest =>
    if isBlank c then
      if current.isEmpty then wordsOfText [] rest else current.reverse :: wordsOfText [] rest
    else wordsOfText (c :: current) rest

/-- The memory-reference mnemonics and their opcodes (R95). -/
def memoryReferenceMnemonics : List (List Char × BitVec 3) :=
  [("AND".toList, 0), ("ADD".toList, 1), ("LDA".toList, 2), ("STA".toList, 3), ("BUN".toList, 4), ("BSA".toList, 5),
   ("ISZ".toList, 6)]

/-- The opcode-7 mnemonics and their instructions (R96, R97). -/
def operationMnemonics : List (List Char × Instr) :=
  [("CLA".toList, .cla), ("CLE".toList, .cle), ("CMA".toList, .cma), ("CME".toList, .cme), ("CIR".toList, .cir),
   ("CIL".toList, .cil), ("INC".toList, .inc), ("SPA".toList, .spa), ("SNA".toList, .sna), ("SZA".toList, .sza),
   ("SZE".toList, .sze), ("HLT".toList, .hlt), ("INP".toList, .inp), ("OUT".toList, .out), ("SKI".toList, .ski),
   ("SKO".toList, .sko), ("ION".toList, .ion), ("IOF".toList, .iof)]

/-- The statement that the words of a line form (R103, R104, R105). DESIGN CHOICE (spec/91_not_in_source.md N13), log entry
28: mnemonics, directives and the letter I are written in capitals, as in the source's examples, and small letters are not
read as capitals; the operand of ORG is below 1000 hexadecimal, and any number of ORG lines is allowed. -/
def statementOf : List (List Char) → Option Statement
  | [name] =>
    if name = "END".toList then some .stop else (operationMnemonics.lookup name).map Statement.operation
  | [name, arg] =>
    if name = "ORG".toList then
      (numberIn 16 arg).bind (fun n => if n < Config.memorySize then some (.org (BitVec.ofNat 12 n)) else none)
    else if name = "DEC".toList then ((signedDecimal arg).bind decimalWord).map Statement.constant
    else if name = "HEX".toList then ((numberIn 16 arg).bind hexWord).map Statement.constant
    else (memoryReferenceMnemonics.lookup name).map (fun op => .memoryReference op .direct arg)
  | [name, arg, indirect] =>
    if indirect = "I".toList then
      (memoryReferenceMnemonics.lookup name).map (fun op => .memoryReference op .indirect arg)
    else none
  | _ => none

/-- The statement occupies a word of memory: all but ORG and END do (R102). -/
def Statement.hasWord : Statement → Bool
  | .org _ => false
  | .stop => false
  | .constant _ => true
  | .operation _ => true
  | .memoryReference _ _ _ => true

/-- The location counter after a statement, with the counter at `loc` before it: set by ORG, advanced by one past a word
(R107). -/
def Statement.nextLocation (loc : Nat) : Statement → Nat
  | .org a => a.toNat
  | .stop => loc
  | .constant _ => loc + 1
  | .operation _ => loc + 1
  | .memoryReference _ _ _ => loc + 1

/-- The line needs an address: it has a word to place, or a label to give a value. -/
def Line.needsAddress (line : Line) : Bool := line.statement.hasWord || line.label.isSome

/-- Reads one line; none is a blank line. The comment runs from `/` to the end, the label ends at the comma, and a
pseudo-instruction may have a label too (R102). DESIGN CHOICE, log entry 28: a label is any run of characters without a
blank, a comma or a slash, of any length, since the source states no rule for length or alphabet (R106,
spec/91_not_in_source.md N13); a line that holds only a comment is a blank line, with no word. -/
def parseLine (text : List Char) : Except AsmError (Option Line) :=
  let code := text.takeWhile (· ≠ '/')
  if code.contains ',' then
    match wordsOfText [] (code.takeWhile (· ≠ ',')), statementOf (wordsOfText [] ((code.dropWhile (· ≠ ',')).drop 1)) with
    | [label], some st => .ok (some ⟨some label, st⟩)
    | _, _ => .error (.badLine text)
  else
    match wordsOfText [] code with
    | [] => .ok none
    | ws =>
      match statementOf ws with
      | some st => .ok (some ⟨none, st⟩)
      | none => .error (.badLine text)

/-- Reads the lines of a text up to and with `END`; lines after it are not read (R105, decision D18). A text without `END`
ends at its last line (DESIGN CHOICE, log entry 28). -/
def parseLines : List (List Char) → Except AsmError (List Line)
  | [] => .ok []
  | text :: rest =>
    match parseLine text with
    | .error e => .error e
    | .ok none => parseLines rest
    | .ok (some line) =>
      if line.statement = .stop then .ok [line]
      else
        match parseLines rest with
        | .error e => .error e
        | .ok lines => .ok (line :: lines)

/-! ## The two passes (R107) -/

/-- Gives each line that has a word or a label the location it is read at, with the location counter at `loc`. DESIGN
CHOICE, log entry 28: an ORG line's own location is where the counter stood before that ORG sets it. -/
def place : Nat → List Line → Except AsmError (List (Addr × Line))
  | _, [] => .ok []
  | loc, line :: rest =>
    match place (line.statement.nextLocation loc) rest with
    | .error e => .error e
    | .ok placed =>
      if !line.needsAddress then .ok placed
      else if loc < Config.memorySize then .ok ((BitVec.ofNat 12 loc, line) :: placed)
      else .error .pastEndOfMemory

/-- The symbol table: each label with the address of its line (R106). -/
def symbolsOf : List (Addr × Line) → Except AsmError (List (List Char × Addr))
  | [] => .ok []
  | (a, line) :: rest =>
    match symbolsOf rest with
    | .error e => .error e
    | .ok symbols =>
      match line.label with
      | none => .ok symbols
      | some name =>
        if (symbols.lookup name).isSome then .error (.duplicateLabel name) else .ok ((name, a) :: symbols)

/-- The address an operand stands for: a label of the program, or else a hexadecimal number, of which the low 12 bits are
used (R103). -/
def operandAddress (symbols : List (List Char × Addr)) (operand : List Char) : Except AsmError Addr :=
  match symbols.lookup operand with
  | some a => .ok a
  | none =>
    match numberIn 16 operand with
    | some n => .ok (BitVec.ofNat 12 n)
    | none => .error (.undefinedSymbol operand)

/-- The word of a line (R103, R104, R105). ORG and END have none. -/
def lineWord (symbols : List (List Char × Addr)) : Statement → Except AsmError (Option Word)
  | .org _ => .ok none
  | .stop => .ok none
  | .constant w => .ok (some w)
  | .operation i => .ok (some i.encode)
  | .memoryReference op m operand =>
    match operandAddress symbols operand with
    | .error e => .error e
    | .ok a => .ok (some (memoryReferenceWord op m a))

/-- The second pass: the words with their addresses, in the order of the lines. -/
def emit (symbols : List (List Char × Addr)) : List (Addr × Line) → Except AsmError (List (Addr × Word))
  | [] => .ok []
  | (a, line) :: rest =>
    match lineWord symbols line.statement, emit symbols rest with
    | .ok (some w), .ok words => .ok ((a, w) :: words)
    | .ok none, .ok words => .ok words
    | .error e, _ => .error e
    | _, .error e => .error e

/-- Assembles the lines of a source text into words with their addresses. Before the first ORG the location counter is
0 (log entry 25). -/
def assemble (source : List String) : Except AsmError (List (Addr × Word)) :=
  match parseLines (source.map String.toList) with
  | .error e => .error e
  | .ok lines =>
    match place 0 lines with
    | .error e => .error e
    | .ok placed =>
      match symbolsOf placed with
      | .error e => .error e
      | .ok symbols => emit symbols placed

/-- The memory image of assembled words: each word stored at its address, the later one where two lines share an
address; the other words are not set (R107). -/
def imageOf (words : List (Addr × Word)) : Memory := words.foldl (fun m c => m.write c.1 c.2) []

end Sys2Proof.Machine
end

