-- ==== Sys2Proof/Safety.lean ====
section
/-! DEFINITION. What a run is, when it has ended, what holds at every instruction boundary, and what counts as a safe
run: the terms the statements use. -/

namespace Sys2Proof

open Machine

/-- The state after `n` steps from `s`, if none of them stops. -/
def runFrom : Nat → State → Host.Outcome State Fault Refusal := Sys2Proof.core.run

/-- A state that some run from `s` passes through. -/
def ReachesFrom (s t : State) : Prop := ∃ n, runFrom n s = .next t

/-- Whose turn comes next: the first turn scheduled, and the CPU's where none is (log entry 19). -/
def nextTurn (s : State) : Turn := s.turns.head?.getD .cpu

/-- The next step is one instruction cycle of the CPU: it runs, no interrupt is pending, and it is the CPU's turn,
whether scheduled or because no turn is (spec/40_instruction_cycle.md R125). -/
def AtInstruction (s : State) : Prop := s.S = true ∧ s.R = false ∧ nextTurn s = .cpu

/-- The next step is the interrupt cycle, at the CPU's turn (spec/60_exceptions.md R226). -/
def AtInterrupt (s : State) : Prop := s.S = true ∧ s.R = true ∧ nextTurn s = .cpu

/-- The run has ended (spec/00_scope.md R13). -/
def HasEnded (s : State) : Prop := s.S = false

/-- The character of the last `Out` event of a history, oldest first, and 0x00 where there is none. -/
def lastOutput (h : List Event) : Character :=
  h.foldl (fun last e => match e with | .out c _ => c | .inp _ _ => last) 0

/-- What holds at every instruction boundary: the memory is in its canonical form; I is bit 15 of IR (spec/10_state.md
R31); TR holds a zero-extended address (R27, spec/60_exceptions.md R226); OUTR holds the last character sent (R29). -/
def BoundaryInvariant (s : State) : Prop :=
  s.M.wf = true ∧ s.I = fieldI s.IR ∧ s.TR = wordOf (addressOf s.TR) ∧ s.OUTR = lastOutput s.hist

/-- Every event of a history records its flag up: no character was read unflagged and none was sent to a busy device
(spec/00_scope.md R12; spec/93_implementation_defined.md U11). -/
def ProtocolKept (s : State) : Prop :=
  ∀ e ∈ s.hist, match e with | .inp _ f => f = true | .out _ f => f = true

/-- A safe run of `n` steps: no step stops, and the device protocol is kept. -/
def SafeRun (n : Nat) (s : State) : Prop := ∃ t, runFrom n s = .next t ∧ ProtocolKept t

/-- Two states agree on everything a program, a device or an observer can ever see: they differ at most in AR, IR, I,
DR and TR, which no step reads before writing (spec/10_state.md R24, R25, R27, R31; spec/40_instruction_cycle.md
R128). -/
def SameVisible (s t : State) : Prop :=
  { s with AR := t.AR, IR := t.IR, I := t.I, DR := t.DR, TR := t.TR } = t

/-! ## Combined words (spec/42_register_reference.md R185, R186; spec/43_input_output.md R210, R211) -/

/-- The state an opcode-7 operation can read or write. -/
inductive Resource where
  | AC | E | PC | S | INPR | OUTR | FGI | FGO | IEN
  deriving DecidableEq, Repr

/-- What an opcode-7 operation reads (R186, R211). A memory-reference instruction is never combined. -/
def Instr.reads : Instr → List Resource
  | .cla | .cle | .hlt | .ion | .iof => []
  | .cma | .inc => [.AC]
  | .cme => [.E]
  | .cir | .cil => [.AC, .E]
  | .spa | .sna | .sza => [.AC]
  | .sze => [.E]
  | .inp => [.INPR]
  | .out => [.AC]
  | .ski => [.FGI]
  | .sko => [.FGO]
  | .and _ _ | .add _ _ | .lda _ _ | .sta _ _ | .bun _ _ | .bsa _ _ | .isz _ _ => []

/-- What an opcode-7 operation writes (R186, R211). A memory-reference instruction is never combined. -/
def Instr.writes : Instr → List Resource
  | .cla | .cma | .inc => [.AC]
  | .cle | .cme => [.E]
  | .cir | .cil => [.AC, .E]
  | .spa | .sna | .sza | .sze | .ski | .sko => [.PC]
  | .hlt => [.S]
  | .inp => [.AC, .FGI]
  | .out => [.OUTR, .FGO]
  | .ion | .iof => [.IEN]
  | .and _ _ | .add _ _ | .lda _ _ | .sta _ _ | .bun _ _ | .bsa _ _ | .isz _ _ => []

/-- Two opcode-7 operations interfere when one writes state the other reads or writes (R186). Two skips do, since both
write PC. -/
def Instr.interferes (i j : Instr) : Bool :=
  i.writes.any (fun x => j.reads.contains x || j.writes.contains x) || j.writes.any (fun x => i.reads.contains x)

/-- The state after an operation that is performed only if its select bit is 1. -/
def performIf (selectBit : Bool) (i : Instr) (s : State) : State :=
  if selectBit then match exec i s with | .next t => t | .fault _ => s | .refused _ => s else s

end Sys2Proof
end

