-- ==== Sys2Proof/Certificates/Slice0/Obligations.lean ====
section
/-! DEFINITION. The statements for the provers. A docstring names the rule of spec/ a statement formalises; where a
statement rests on one of the spec's own decisions (92_eei_decisions.md D<n>) or on a convention of this model, the
docstring says so and names the log entry. -/

open Sys2Proof Sys2Proof.Machine

/-! ## Encoding (30_encoding.md) -/

/-- R95: the word `I ++ opcode ++ a` of each memory-reference opcode, with either addressing mode and any address field,
decodes to that one instruction. -/
def Obligations.MemoryReferenceWordsDecode : Prop :=
  ∀ a : Addr,
    decodeWord (0#1 ++ 0#3 ++ a) = ⟨.memoryReference, [.and .direct a]⟩ ∧
    decodeWord (1#1 ++ 0#3 ++ a) = ⟨.memoryReference, [.and .indirect a]⟩ ∧
    decodeWord (0#1 ++ 1#3 ++ a) = ⟨.memoryReference, [.add .direct a]⟩ ∧
    decodeWord (1#1 ++ 1#3 ++ a) = ⟨.memoryReference, [.add .indirect a]⟩ ∧
    decodeWord (0#1 ++ 2#3 ++ a) = ⟨.memoryReference, [.lda .direct a]⟩ ∧
    decodeWord (1#1 ++ 2#3 ++ a) = ⟨.memoryReference, [.lda .indirect a]⟩ ∧
    decodeWord (0#1 ++ 3#3 ++ a) = ⟨.memoryReference, [.sta .direct a]⟩ ∧
    decodeWord (1#1 ++ 3#3 ++ a) = ⟨.memoryReference, [.sta .indirect a]⟩ ∧
    decodeWord (0#1 ++ 4#3 ++ a) = ⟨.memoryReference, [.bun .direct a]⟩ ∧
    decodeWord (1#1 ++ 4#3 ++ a) = ⟨.memoryReference, [.bun .indirect a]⟩ ∧
    decodeWord (0#1 ++ 5#3 ++ a) = ⟨.memoryReference, [.bsa .direct a]⟩ ∧
    decodeWord (1#1 ++ 5#3 ++ a) = ⟨.memoryReference, [.bsa .indirect a]⟩ ∧
    decodeWord (0#1 ++ 6#3 ++ a) = ⟨.memoryReference, [.isz .direct a]⟩ ∧
    decodeWord (1#1 ++ 6#3 ++ a) = ⟨.memoryReference, [.isz .indirect a]⟩

/-- R96, and the table of R97: each canonical register-reference or input-output word decodes to its one instruction. -/
def Obligations.CanonicalWordsDecode : Prop :=
  decodeWord 0x7800 = ⟨.registerReference, [.cla]⟩ ∧ decodeWord 0x7400 = ⟨.registerReference, [.cle]⟩ ∧
  decodeWord 0x7200 = ⟨.registerReference, [.cma]⟩ ∧ decodeWord 0x7100 = ⟨.registerReference, [.cme]⟩ ∧
  decodeWord 0x7080 = ⟨.registerReference, [.cir]⟩ ∧ decodeWord 0x7040 = ⟨.registerReference, [.cil]⟩ ∧
  decodeWord 0x7020 = ⟨.registerReference, [.inc]⟩ ∧ decodeWord 0x7010 = ⟨.registerReference, [.spa]⟩ ∧
  decodeWord 0x7008 = ⟨.registerReference, [.sna]⟩ ∧ decodeWord 0x7004 = ⟨.registerReference, [.sza]⟩ ∧
  decodeWord 0x7002 = ⟨.registerReference, [.sze]⟩ ∧ decodeWord 0x7001 = ⟨.registerReference, [.hlt]⟩ ∧
  decodeWord 0xF800 = ⟨.inputOutput, [.inp]⟩ ∧ decodeWord 0xF400 = ⟨.inputOutput, [.out]⟩ ∧
  decodeWord 0xF200 = ⟨.inputOutput, [.ski]⟩ ∧ decodeWord 0xF100 = ⟨.inputOutput, [.sko]⟩ ∧
  decodeWord 0xF080 = ⟨.inputOutput, [.ion]⟩ ∧ decodeWord 0xF040 = ⟨.inputOutput, [.iof]⟩

/-- R94 (decisions D5, D6, D7; log entries 10, 11, 12, 23): every one of the 65536 words decodes to a well-formed
instruction word. -/
def Obligations.EveryWordDecodesWellFormed : Prop := ∀ w : Word, (decodeWord w).wellFormed = true

/-- R94 to R99 (the order of a combined word is decision D5, D6; log entries 10, 11, 23): decoding the word of a
well-formed instruction word gives it back, whatever operations it combines. -/
def Obligations.DecodeOfEncode : Prop := ∀ iw : InstrWord, iw.wellFormed = true → decodeWord iw.encode = iw

/-- R94, R100 (combined input-output words are decision D6, log entry 11; their low bits D7, log entry 12): no bit of a
word is lost by decoding, but bits 5 to 0 of an input-output word, which select nothing. -/
def Obligations.EncodeOfDecode : Prop :=
  ∀ w : Word, (decodeWord w).encode = if (decodeWord w).group = .inputOutput then w &&& 0xFFC0 else w

/-- The rows of the opcode table (INDEX.md, "How to read opcode_table.json"; R98): a word performs an instruction exactly
when it selects the instruction's row, `w AND mask = match`, and, for a memory-reference row, carries its mode and
address field. That a combined input-output word performs every operation it selects is decision D6 (log entry 11), and
that its bits 5 to 0 do not matter is decision D7 (log entry 12): DESIGN CHOICES. -/
def Obligations.PerformedIffRowSelected : Prop :=
  ∀ (w : Word) (i : Instr),
    i ∈ (decodeWord w).ops ↔ w &&& i.tableMask = i.tableMatch ∧ (i.group = .memoryReference → i.encode = w)

/-- R210 (decision D7, log entry 12): bits 5 to 0 of an input-output word are ignored. -/
def Obligations.InputOutputLowBitsIgnored : Prop :=
  ∀ (m : BitVec 6) (x y : BitVec 6), decodeWord (0xF#4 ++ m ++ x) = decodeWord (0xF#4 ++ m ++ y)

/-! ## Memory-reference instructions (41_memory_reference.md) -/

/-- R124 (the low 12 bits of the pointer word are decision D1, log entry 6): the effective address of both modes, and
that computing it changes AR alone. -/
def Obligations.EffectiveAddressOfBothModes : Prop :=
  ∀ (a : Addr) (s : State),
    effectiveAddress .direct a s = a ∧
    effectiveAddress .indirect a s = (s.M.read a).extractLsb' 0 12 ∧
    ∀ m, s.withEA m a = { s with AR := effectiveAddress m a s }

/-- R140 (DR by decision D17, log entry 17): AND. -/
def Obligations.AndResult : Prop :=
  ∀ (m : AddrMode) (a : Addr) (s : State),
    exec (.and m a) s = .next { s with
      AR := effectiveAddress m a s
      DR := s.M.read (effectiveAddress m a s)
      AC := s.AC &&& s.M.read (effectiveAddress m a s) }

/-- R141: ADD. AC and E together hold the exact sum, and nothing but AR, DR, AC and E changes. -/
def Obligations.AddResult : Prop :=
  ∀ (m : AddrMode) (a : Addr) (s : State), ∃ (sum : Word) (carry : Bool),
    exec (.add m a) s = .next { s with
      AR := effectiveAddress m a s
      DR := s.M.read (effectiveAddress m a s)
      AC := sum
      E := carry } ∧
    sum.toNat + 65536 * carry.toNat = s.AC.toNat + (s.M.read (effectiveAddress m a s)).toNat

/-- R142: LDA. -/
def Obligations.LdaResult : Prop :=
  ∀ (m : AddrMode) (a : Addr) (s : State),
    exec (.lda m a) s = .next { s with
      AR := effectiveAddress m a s
      DR := s.M.read (effectiveAddress m a s)
      AC := s.M.read (effectiveAddress m a s) }

/-- R143: STA. The word at the effective address becomes AC, every other word reads as before, and nothing else but AR
changes. -/
def Obligations.StaResult : Prop :=
  ∀ (m : AddrMode) (a : Addr) (s : State), ∃ t : State,
    exec (.sta m a) s = .next t ∧
    t = { s with AR := effectiveAddress m a s, M := t.M } ∧
    t.M.read (effectiveAddress m a s) = s.AC ∧
    ∀ b, b ≠ effectiveAddress m a s → t.M.read b = s.M.read b

/-- R144 (the low 12 bits of the pointer word are decision D1, log entry 6): BUN. -/
def Obligations.BunResult : Prop :=
  ∀ (m : AddrMode) (a : Addr) (s : State),
    exec (.bun m a) s = .next { s with AR := effectiveAddress m a s, PC := effectiveAddress m a s }

/-- R145 (zeros above the return address: decision D2; wrap-around: D3; AR: D17; log entries 7, 8, 17): BSA. -/
def Obligations.BsaResult : Prop :=
  ∀ (m : AddrMode) (a : Addr) (s : State), ∃ t : State,
    exec (.bsa m a) s = .next t ∧
    t = { s with PC := effectiveAddress m a s + 1, AR := effectiveAddress m a s + 1, M := t.M } ∧
    t.M.read (effectiveAddress m a s) = 0#4 ++ s.PC ∧
    ∀ b, b ≠ effectiveAddress m a s → t.M.read b = s.M.read b

/-- R146 (DR by decision D17, wrap of PC by D3; log entries 17, 8): ISZ. The skip is taken exactly when the word held
0xFFFF. -/
def Obligations.IszResult : Prop :=
  ∀ (m : AddrMode) (a : Addr) (s : State), ∃ t : State,
    exec (.isz m a) s = .next t ∧
    t = { s with
      AR := effectiveAddress m a s
      DR := s.M.read (effectiveAddress m a s) + 1
      PC := if s.M.read (effectiveAddress m a s) = 0xFFFF then s.PC + 1 else s.PC
      M := t.M } ∧
    t.M.read (effectiveAddress m a s) = s.M.read (effectiveAddress m a s) + 1 ∧
    ∀ b, b ≠ effectiveAddress m a s → t.M.read b = s.M.read b

/-! ## Register-reference instructions (42_register_reference.md) -/

/-- R170, R171, R172, R173: CLA, CLE, CMA, CME. -/
def Obligations.ClearAndComplementResults : Prop :=
  ∀ s : State,
    exec .cla s = .next { s with AC := 0x0000 } ∧
    exec .cle s = .next { s with E := false } ∧
    exec .cma s = .next { s with AC := 0xFFFF - s.AC } ∧
    exec .cme s = .next { s with E := !s.E }

/-- R174, R175: CIR and CIL, bit by bit. All right-hand sides read the state before the shift. -/
def Obligations.CircularShiftResults : Prop :=
  ∀ s : State,
    (∃ (ac : Word) (e : Bool), exec .cir s = .next { s with AC := ac, E := e } ∧
      e = s.AC.getLsbD 0 ∧ ac.getLsbD 15 = s.E ∧ ∀ k, k < 15 → ac.getLsbD k = s.AC.getLsbD (k + 1)) ∧
    (∃ (ac : Word) (e : Bool), exec .cil s = .next { s with AC := ac, E := e } ∧
      e = s.AC.getLsbD 15 ∧ ac.getLsbD 0 = s.E ∧ ∀ k, k < 15 → ac.getLsbD (k + 1) = s.AC.getLsbD k)

/-- R176 (E unchanged on a wrap: decision D8, log entry 13): INC. -/
def Obligations.IncResult : Prop :=
  ∀ s : State, ∃ ac : Word,
    exec .inc s = .next { s with AC := ac } ∧ ac.toNat = (s.AC.toNat + 1) % 65536

/-- R177, R178, R179, R180: SPA, SNA, SZA, SZE (a skip wraps modulo 4096 by decision D3, log entry 8). -/
def Obligations.SkipResults : Prop :=
  ∀ s : State,
    exec .spa s = .next { s with PC := if s.AC.getLsbD 15 = false then s.PC + 1 else s.PC } ∧
    exec .sna s = .next { s with PC := if s.AC.getLsbD 15 = true then s.PC + 1 else s.PC } ∧
    exec .sza s = .next { s with PC := if s.AC = 0x0000 then s.PC + 1 else s.PC } ∧
    exec .sze s = .next { s with PC := if s.E = false then s.PC + 1 else s.PC }

/-- HLT's own effect (R181): S alone changes. What the rest of the step does with PC and R is
`StepRunsTheDecodedWord`. -/
def Obligations.HltResult : Prop := ∀ s : State, exec .hlt s = .next { s with S := false }

/-- R174, R175: seventeen CIRs restore AC and E and sixteen do not always; CIL and CIR undo each other. -/
def Obligations.RotationRing : Prop :=
  (∀ s : State, execAll (List.replicate 17 .cir) s = .next s) ∧
  (∃ s : State, execAll (List.replicate 16 .cir) s ≠ .next s) ∧
  (∀ s : State, execAll [.cir, .cil] s = .next s) ∧
  (∀ s : State, execAll [.cil, .cir] s = .next s)

/-! ## Input-output instructions (43_input_output.md) -/

/-- R200: INP, whatever FGI is, with its event (R12). -/
def Obligations.InpResult : Prop :=
  ∀ s : State, ∃ ac : Word,
    exec .inp s = .next { s with AC := ac, FGI := false, hist := s.hist ++ [.inp s.INPR s.FGI] } ∧
    ac.extractLsb' 0 8 = s.INPR ∧ ac.extractLsb' 8 8 = s.AC.extractLsb' 8 8

/-- R201: OUT, whatever FGO is, with its event (R12). -/
def Obligations.OutResult : Prop :=
  ∀ s : State,
    exec .out s = .next { s with
      OUTR := s.AC.extractLsb' 0 8
      FGO := false
      hist := s.hist ++ [.out (s.AC.extractLsb' 0 8) s.FGO] }

/-- R202, R203: SKI and SKO test a flag and do not clear it (a skip wraps modulo 4096 by decision D3, log entry 8). -/
def Obligations.FlagSkipResults : Prop :=
  ∀ s : State,
    exec .ski s = .next { s with PC := if s.FGI = true then s.PC + 1 else s.PC } ∧
    exec .sko s = .next { s with PC := if s.FGO = true then s.PC + 1 else s.PC }

/-- ION's and IOF's own effect (43_input_output.md): IEN alone changes. When an interrupt follows is
`IonDelaysTheInterrupt` and `RequestIsSampledBeforeTheInstruction`, which rest on decision D9. -/
def Obligations.InterruptEnableResults : Prop :=
  ∀ s : State, exec .ion s = .next { s with IEN := true } ∧ exec .iof s = .next { s with IEN := false }

/-! ## The CPU step (40_instruction_cycle.md) -/

/-- R125 (R by decision D9, log entry 14; where `exec` begins, log entry 22; the turn used up, log entry 19): at an
instruction boundary with the CPU to move, the step fetches the word at PC, performs what it decodes to on the fetched
state, and sets R from the state before; for a word of one instruction that is `exec` of it. -/
def Obligations.StepRunsTheDecodedWord : Prop :=
  ∀ s t : State, AtInstruction s →
    execAll (decodeWord (s.M.read s.PC)).ops
      { s with
        IR := s.M.read s.PC
        PC := s.PC + 1
        AR := (s.M.read s.PC).extractLsb' 0 12
        I := (s.M.read s.PC).getLsbD 15
        turns := s.turns.tail } = .next t →
    step s = .next { t with R := s.IEN && (s.FGI || s.FGO) }

/-- The same for a word that decodes to one instruction `i` (R125; decision D9 for R, log entry 14; the turn used up, log
entry 19): the step is `exec` of `i`. -/
def Obligations.StepRunsOneInstruction : Prop :=
  ∀ (s t : State) (i : Instr), AtInstruction s → (decodeWord (s.M.read s.PC)).ops = [i] →
    exec i { s with
      IR := s.M.read s.PC
      PC := s.PC + 1
      AR := (s.M.read s.PC).extractLsb' 0 12
      I := (s.M.read s.PC).getLsbD 15
      turns := s.turns.tail } = .next t →
    step s = .next { t with R := s.IEN && (s.FGI || s.FGO) }

/-- R220, R94, R61 (the schedule `turns` is the model's, log entry 19): while the machine runs (S = 1) or a turn is left,
the step has a next state; no word, address, interrupt or device makes it fault or be refused. (HLT stops the machine by
clearing S, and that step too has a next state.) -/
def Obligations.EveryStepCompletes : Prop :=
  ∀ s : State, s.S = true ∨ s.turns ≠ [] → ∃ t, step s = .next t

/-- R220, R221 (derived there from the closed instruction list): every instruction completes in every state. -/
def Obligations.EveryInstructionCompletes : Prop := ∀ (i : Instr) (s : State), ∃ t, exec i s = .next t

/-- R44 (derived there from R22 to R37): which instructions can change each piece of state. IR, I, R, TR and INPR are
changed by none, nor is the schedule. -/
def Obligations.OnlyTheListedInstructionsWrite : Prop :=
  ∀ (i : Instr) (s t : State), exec i s = .next t →
    (t.AC ≠ s.AC → (∃ m a, i = .and m a ∨ i = .add m a ∨ i = .lda m a) ∨
      i = .cla ∨ i = .cma ∨ i = .cir ∨ i = .cil ∨ i = .inc ∨ i = .inp) ∧
    (t.E ≠ s.E → (∃ m a, i = .add m a) ∨ i = .cle ∨ i = .cme ∨ i = .cir ∨ i = .cil) ∧
    (t.PC ≠ s.PC → (∃ m a, i = .bun m a ∨ i = .bsa m a ∨ i = .isz m a) ∨
      i = .spa ∨ i = .sna ∨ i = .sza ∨ i = .sze ∨ i = .ski ∨ i = .sko) ∧
    (t.M ≠ s.M → ∃ m a, i = .sta m a ∨ i = .bsa m a ∨ i = .isz m a) ∧
    (t.DR ≠ s.DR → ∃ m a, i = .and m a ∨ i = .add m a ∨ i = .lda m a ∨ i = .isz m a) ∧
    (t.AR ≠ s.AR → i.group = .memoryReference) ∧
    (t.OUTR ≠ s.OUTR → i = .out) ∧
    (t.FGI ≠ s.FGI → i = .inp) ∧
    (t.FGO ≠ s.FGO → i = .out) ∧
    (t.IEN ≠ s.IEN → i = .ion ∨ i = .iof) ∧
    (t.S ≠ s.S → i = .hlt) ∧
    (t.hist ≠ s.hist → i = .inp ∨ i = .out) ∧
    t.IR = s.IR ∧ t.I = s.I ∧ t.R = s.R ∧ t.TR = s.TR ∧ t.INPR = s.INPR ∧ t.turns = s.turns

/-- R73 (derived there from R70): a store into the next instruction is seen by the next fetch, where the CPU's step
follows at once and no interrupt intervenes. -/
def Obligations.StoreIsSeenByTheNextFetch : Prop :=
  ∀ s : State, AtInstruction s → (s.IEN && (s.FGI || s.FGO)) = false →
    s.M.read s.PC = 0#1 ++ 3#3 ++ (s.PC + 1) →
    ∃ t, step s = .next t ∧ t.M.read (s.PC + 1) = s.AC ∧
      (nextTurn t = .cpu → ∃ u, step t = .next u ∧ u.IR = s.AC)

/-! ## Combined words (R185, R210; the order is decision D5 and D6, log entries 10 and 11) -/

/-- R185 (decision D5, log entry 10): a register-reference word with select bits `m` performs its operations from bit 11
down to bit 0. -/
def Obligations.RegisterReferenceWordRuns : Prop :=
  ∀ (m : BitVec 12) (s : State),
    execAll (decodeWord (0x7#4 ++ m)).ops s = .next (
      performIf (m.getLsbD 0) .hlt (performIf (m.getLsbD 1) .sze (performIf (m.getLsbD 2) .sza (
      performIf (m.getLsbD 3) .sna (performIf (m.getLsbD 4) .spa (performIf (m.getLsbD 5) .inc (
      performIf (m.getLsbD 6) .cil (performIf (m.getLsbD 7) .cir (performIf (m.getLsbD 8) .cme (
      performIf (m.getLsbD 9) .cma (performIf (m.getLsbD 10) .cle (performIf (m.getLsbD 11) .cla s))))))))))))

/-- R210 (decisions D6 and D7, log entries 11 and 12): an input-output word performs its operations from bit 11 down to
bit 6. -/
def Obligations.InputOutputWordRuns : Prop :=
  ∀ (m : BitVec 12) (s : State),
    execAll (decodeWord (0xF#4 ++ m)).ops s = .next (
      performIf (m.getLsbD 6) .iof (performIf (m.getLsbD 7) .ion (performIf (m.getLsbD 8) .sko (
      performIf (m.getLsbD 9) .ski (performIf (m.getLsbD 10) .out (performIf (m.getLsbD 11) .inp s))))))

/-- R100 (decision D7, log entry 12; R by D9, log entry 14; the turn used up, log entry 19): a word that selects no
operation changes PC, IR, AR, I and possibly R, and nothing else. -/
def Obligations.EmptyWordsDoNothing : Prop :=
  ∀ (s : State) (x : BitVec 6), AtInstruction s →
    s.M.read s.PC = 0x7000 ∨ s.M.read s.PC = 0xF#4 ++ 0#6 ++ x →
    step s = .next { s with
      IR := s.M.read s.PC
      PC := s.PC + 1
      AR := (s.M.read s.PC).extractLsb' 0 12
      I := (s.M.read s.PC).getLsbD 15
      R := s.IEN && (s.FGI || s.FGO)
      turns := s.turns.tail }

/-- R187 (decision D5, log entry 10; derived there from R185): the results of the seventeen combined words, in the order
of its table. The word 0x7FFF gives the same AC, E and number of skips whatever AC and E were. -/
def Obligations.CombinedWordResults : Prop :=
  ∀ s : State,
    execAll (decodeWord 0x7C00).ops s = .next { s with AC := 0, E := false } ∧
    execAll (decodeWord 0x7900).ops s = .next { s with AC := 0, E := !s.E } ∧
    execAll (decodeWord 0x7300).ops s = .next { s with AC := 0xFFFF - s.AC, E := !s.E } ∧
    execAll (decodeWord 0x7420).ops s = .next { s with AC := s.AC + 1, E := false } ∧
    execAll (decodeWord 0x7801).ops s = .next { s with AC := 0, S := false } ∧
    execAll (decodeWord 0x7A00).ops s = .next { s with AC := 0xFFFF } ∧
    execAll (decodeWord 0x7820).ops s = .next { s with AC := 0x0001 } ∧
    execAll (decodeWord 0x7220).ops s = .next { s with AC := -s.AC } ∧
    execAll (decodeWord 0x7A20).ops s = .next { s with AC := 0x0000 } ∧
    execAll (decodeWord 0x7500).ops s = .next { s with E := true } ∧
    execAll (decodeWord 0x7480).ops s = .next { s with AC := s.AC >>> 1, E := s.AC.getLsbD 0 } ∧
    execAll (decodeWord 0x7440).ops s = .next { s with AC := s.AC <<< 1, E := s.AC.getLsbD 15 } ∧
    execAll (decodeWord 0x70C0).ops s = .next s ∧
    execAll (decodeWord 0x7018).ops s = .next { s with PC := s.PC + 1 } ∧
    execAll (decodeWord 0x7014).ops s = .next { s with
      PC := if s.AC = 0 then s.PC + 2 else if s.AC.getLsbD 15 = false then s.PC + 1 else s.PC } ∧
    execAll (decodeWord 0x7804).ops s = .next { s with AC := 0, PC := s.PC + 1 } ∧
    execAll (decodeWord 0x7FFF).ops s = .next { s with AC := 0, E := true, PC := s.PC + 2, S := false }

/-- R148 (derived there from R141 and R146): subtraction is CMA, INC, then ADD (`a - b` is `a + (~b + 1)`). -/
def Obligations.SubtractionByComplement : Prop :=
  ∀ (m : AddrMode) (a : Addr) (s : State), ∃ t : State,
    execAll [.cma, .inc, .add m a] s = .next t ∧
    t.AC = s.M.read (effectiveAddress m a s) - s.AC ∧ t.M = s.M ∧ t.PC = s.PC

/-- R186 (derived there from R170 to R181): the table of interfering pairs of register-reference operations, in the order
CLA, CLE, CMA, CME, CIR, CIL, INC, SPA, SNA, SZA, SZE, HLT. -/
def Obligations.InterferenceTable : Prop :=
  let ops : List Instr := [.cla, .cle, .cma, .cme, .cir, .cil, .inc, .spa, .sna, .sza, .sze, .hlt]
  let interfering (i : Instr) : List Instr := ops.filter (fun j => decide (j ≠ i) && i.interferes j)
  interfering .cla = [.cma, .cir, .cil, .inc, .spa, .sna, .sza] ∧
  interfering .cle = [.cme, .cir, .cil, .sze] ∧
  interfering .cma = [.cla, .cir, .cil, .inc, .spa, .sna, .sza] ∧
  interfering .cme = [.cle, .cir, .cil, .sze] ∧
  interfering .cir = [.cla, .cle, .cma, .cme, .cil, .inc, .spa, .sna, .sza, .sze] ∧
  interfering .cil = [.cla, .cle, .cma, .cme, .cir, .inc, .spa, .sna, .sza, .sze] ∧
  interfering .inc = [.cla, .cma, .cir, .cil, .spa, .sna, .sza] ∧
  interfering .spa = [.cla, .cma, .cir, .cil, .inc, .sna, .sza, .sze] ∧
  interfering .sna = [.cla, .cma, .cir, .cil, .inc, .spa, .sza, .sze] ∧
  interfering .sza = [.cla, .cma, .cir, .cil, .inc, .spa, .sna, .sze] ∧
  interfering .sze = [.cle, .cme, .cir, .cil, .spa, .sna, .sza] ∧
  interfering .hlt = []

/-- R186, R211 (derived there): operations of opcode 7 that are pairwise non-interfering give the same result in every
order. -/
def Obligations.NonInterferingOrderIsFree : Prop :=
  ∀ (ops reordered : List Instr) (s : State),
    (∀ i ∈ ops, i.group ≠ .memoryReference) →
    ops.Pairwise (fun i j => i.interferes j = false) → ops.Perm reordered →
    execAll ops s = execAll reordered s

/-! ## The interrupt facility (60_exceptions.md; decisions D9 and D10, log entries 14 and 15) -/

/-- R226 (decision D10, log entry 15; zeros above the return address: D2, log entry 7; the turn used up, log entry 19):
taking the interrupt. -/
def Obligations.InterruptCycleResult : Prop :=
  ∀ s : State, AtInterrupt s → ∃ t : State,
    step s = .next t ∧
    t = { s with
      AR := 0x000
      TR := 0#4 ++ s.PC
      PC := 0x001
      IEN := false
      R := false
      M := t.M
      turns := s.turns.tail } ∧
    t.M.read 0x000 = 0#4 ++ s.PC ∧
    ∀ b, b ≠ 0x000 → t.M.read b = s.M.read b

/-- R224 (decision D9, log entry 14): an instruction cycle leaves in R the request as it was before the instruction,
whatever the instruction does to IEN, FGI and FGO. -/
def Obligations.RequestIsSampledBeforeTheInstruction : Prop :=
  ∀ s : State, AtInstruction s → ∃ t, step s = .next t ∧ t.R = (s.IEN && (s.FGI || s.FGO))

/-- R225 (derived there; decision D9 and D10, log entries 14, 15): interrupts are precise. The instruction during which
R was set completes, and the interrupt cycle, which is the CPU's next step, saves the PC it left, with everything a
program can see but PC, IEN, R and M[0] unchanged. Said for a CPU step that follows at once. -/
def Obligations.InterruptsArePrecise : Prop :=
  ∀ s t : State, AtInstruction s → (s.IEN && (s.FGI || s.FGO)) = true → step s = .next t → t.S = true →
    t.R = true ∧ (nextTurn t = .cpu → ∃ u, step t = .next u ∧ u.PC = 0x001 ∧ u.M.read 0x000 = 0#4 ++ t.PC ∧
      (∀ b, b ≠ 0x000 → u.M.read b = t.M.read b) ∧
      u.AC = t.AC ∧ u.E = t.E ∧ u.S = t.S ∧ u.FGI = t.FGI ∧ u.FGO = t.FGO ∧
      u.INPR = t.INPR ∧ u.OUTR = t.OUTR ∧ u.IEN = false ∧ u.R = false ∧ u.hist = t.hist)

/-- R224, consequence (2) (decision D9, log entry 14): after ION (0xF080) with a flag already up, exactly one more
instruction runs before the interrupt cycle. Said for a CPU step that follows at once. -/
def Obligations.IonDelaysTheInterrupt : Prop :=
  ∀ s : State, AtInstruction s → s.IEN = false → s.FGI = true ∨ s.FGO = true →
    s.M.read s.PC = 0xF080 →
    ∃ t, step s = .next t ∧ t.S = true ∧ t.R = false ∧ t.IEN = true ∧
      (nextTurn t = .cpu → ∃ u, step t = .next u ∧ u.R = true)

/-- R228 (decisions D9 and D10, log entries 14, 15): the return. ION then BUN 0 I, in two CPU steps of which the second
follows at once, enables interrupts again, continues at the address saved in M[0], and changes nothing else a program can
see but R. -/
def Obligations.InterruptReturn : Prop :=
  ∀ s : State, AtInstruction s → s.IEN = false →
    s.M.read s.PC = 0xF080 → s.M.read (s.PC + 1) = 0xC000 →
    ∃ t, step s = .next t ∧ t.PC = s.PC + 1 ∧ t.IEN = true ∧
      (nextTurn t = .cpu → ∃ u, step t = .next u ∧ u.PC = (s.M.read 0x000).extractLsb' 0 12 ∧ u.IEN = true ∧
        u.AC = s.AC ∧ u.E = s.E ∧ u.M = s.M ∧ u.S = true ∧ u.FGI = s.FGI ∧ u.FGO = s.FGO ∧
        u.INPR = s.INPR ∧ u.OUTR = s.OUTR ∧ u.hist = s.hist)

/-- 91_not_in_source.md N19 (decision D9, log entry 14): without ION nothing is ever interrupted. While IEN = 0 and R = 0,
every step but an instruction cycle over a word that selects ION leaves IEN and R 0, whatever the devices do. -/
def Obligations.NoIonNoInterrupt : Prop :=
  ∀ s t : State, s.IEN = false → s.R = false →
    (AtInstruction s → .ion ∉ (decodeWord (s.M.read s.PC)).ops) → step s = .next t → t.IEN = false ∧ t.R = false

/-! ## The devices (60_exceptions.md R240, R241; decisions D15, D16, log entries 18, 19) -/

/-- R240 (decision D15, log entry 18; the turns are the model's, log entry 19): the input device delivers a character
while FGI is down, and has no step while it is up. -/
def Obligations.InputDeviceTurn : Prop :=
  ∀ (s : State) (c : Character) (rest : List Turn), s.turns = .inputDevice c :: rest →
    (s.FGI = false → step s = .next { s with INPR := c, FGI := true, turns := rest }) ∧
    (s.FGI = true → step s = .next { s with turns := rest })

/-- R241 (decision D16, log entry 18; the turns are the model's, log entry 19): the output device becomes ready while FGO
is down, and has no step while it is up. -/
def Obligations.OutputDeviceTurn : Prop :=
  ∀ (s : State) (rest : List Turn), s.turns = .outputDevice :: rest →
    (s.FGO = false → step s = .next { s with FGO := true, turns := rest }) ∧
    (s.FGO = true → step s = .next { s with turns := rest })

/-- R240 (decision D15, log entry 18): a character is never overwritten before INP has taken it. -/
def Obligations.FlaggedCharacterIsKept : Prop :=
  ∀ s t : State, s.FGI = true → step s = .next t → t.INPR = s.INPR

/-- R12 (the history is the model's field, log entry 20): the history only grows, and the only step that records anything
is an instruction cycle over a word that selects INP or OUT; an interrupt cycle, a device's step and a passed turn record
nothing. -/
def Obligations.HistoryOnlyGrows : Prop :=
  ∀ s t : State, step s = .next t →
    (∃ e, t.hist = s.hist ++ e) ∧
    (t.hist ≠ s.hist → AtInstruction s ∧
      (.inp ∈ (decodeWord (s.M.read s.PC)).ops ∨ .out ∈ (decodeWord (s.M.read s.PC)).ops))

/-! ## Reset and the end of a run (70_reset_and_hazards.md, 00_scope.md R13) -/

/-- R43 (START_ADDRESS, RESET_FLAGS and INITIAL_MEMORY are open parameters, decisions D12, D13, D14; log entries 2, 3,
4): the values after initialisation, for every value of the parameters, and reset as the defaults. -/
def Obligations.InitialisationValues : Prop :=
  (∀ (start : Addr) (image : Memory) (flags : Config.ResetFlags) (schedule : List Turn),
    initialise start image flags schedule =
      { AC := 0, DR := 0, AR := 0, IR := 0, PC := start, TR := 0, INPR := 0, OUTR := 0,
        I := flags.I, E := flags.E, IEN := flags.IEN, R := flags.R, S := true, FGI := flags.FGI, FGO := flags.FGO,
        M := image, hist := [], turns := schedule }) ∧
  State.reset = initialise 0x000 [] ⟨false, false, false, false, false, true⟩ []

/-- The invariant of `EveryStepKeepsTheBoundaryInvariant` holds at reset (the values of I, IR and memory there: decision
D12 and log entry 2). -/
def Obligations.ResetMeetsTheBoundaryInvariant : Prop := BoundaryInvariant State.reset

/-- 20_memory.md and R31, R27, R29 (the canonical form is the model's, log entries 1 and 2; TR by decisions D2 and D10,
log entries 7, 15): every step of every agent keeps the canonical form of memory, I equal to bit 15 of IR, TR a
zero-extended address, and OUTR the last character sent. -/
def Obligations.EveryStepKeepsTheBoundaryInvariant : Prop :=
  ∀ s t : State, BoundaryInvariant s → step s = .next t → BoundaryInvariant t

/-- R13, R35 (decision D11, log entry 16): no step sets S again, and only an instruction cycle over a word
that selects HLT clears it. -/
def Obligations.OnlyHltStopsTheMachine : Prop :=
  ∀ s t : State, step s = .next t →
    (t.S = true → s.S = true) ∧
    (s.S = true → t.S = false → AtInstruction s ∧ .hlt ∈ (decodeWord (s.M.read s.PC)).ops)

/-- R127, R249 (decision D11, log entry 16; the device turns are log entry 19): once halted, always halted. In a run of
any length and under any schedule, a halted machine changes nothing but INPR, FGI and FGO, which are the devices', and
the turns that are used up. -/
def Obligations.HaltedIsFinal : Prop :=
  ∀ (n : Nat) (s t : State), HasEnded s → runFrom n s = .next t →
    t = { s with INPR := t.INPR, FGI := t.FGI, FGO := t.FGO, turns := t.turns }

/-- The model's choice for a CPU that has no step (R127; log entry 16): a halted machine with no turn left answers the
fault `halted`, whatever R is. -/
def Obligations.HaltedMachineStops : Prop :=
  ∀ s : State, s.S = false → s.turns = [] → step s = .fault .halted

/-! ## Whole-machine statements -/

/-- R24, R25, R31, R128 (derived there): the boundary values of AR, IR, I, DR and TR never influence later execution. Two
machines that differ in them alone stay so, or stop alike, over runs of every length. -/
def Obligations.HiddenRegistersAreNeverRead : Prop :=
  ∀ (n : Nat) (s t : State), SameVisible s t →
    match runFrom n s, runFrom n t with
    | .next s', .next t' => SameVisible s' t'
    | .fault f, .fault g => f = g
    | .refused p, .refused q => p = q
    | _, _ => False

/-- R145, R144 (decisions D1, D2, log entries 6, 7): call and return. `BSA a` continues at `a + 1`, and a `BUN a I`
performed in any later state whose word at `a` is still the one the call left continues at the word after the BSA. -/
def Obligations.SubroutineCallReturns : Prop :=
  ∀ (s : State) (a : Addr), AtInstruction s → s.M.read s.PC = 0#1 ++ 5#3 ++ a →
    ∃ t, step s = .next t ∧ t.PC = a + 1 ∧
      ∀ u, AtInstruction u → u.M.read u.PC = 1#1 ++ 4#3 ++ a → u.M.read a = t.M.read a →
        ∃ v, step u = .next v ∧ v.PC = s.PC + 1

/-- The canonical form of memory is canonical (the model's own, log entries 1 and 2): well-formed memories that read
alike at every address are equal. -/
def Obligations.EqualMemoriesAreEqualData : Prop :=
  ∀ m n : Memory, m.wf = true → n.wf = true → (∀ a, m.read a = n.read a) → m = n

/-! ## The assembler (30_encoding.md R102 to R107; decision D18, log entry 25) -/

/-- R105 (decisions D18 and D22, log entry 25): `DEC n` is the word whose two's complement reading is n, for n from
-32768 to 32767, and no other number is accepted. -/
def Obligations.DecimalConstants : Prop :=
  ∀ n : Int,
    (-32768 ≤ n → n ≤ 32767 → ∃ w, decimalWord n = some w ∧ w.toInt = n) ∧
    (n < -32768 ∨ 32767 < n → decimalWord n = none)

/-- R103, R95 (decision D18, log entry 25): a memory-reference line whose operand stands for the address `a` assembles to
the word that decodes to its instruction with that address. -/
def Obligations.AssembledLineDecodes : Prop :=
  ∀ (symbols : List (List Char × Addr)) (op : BitVec 3) (m : AddrMode) (operand : List Char) (a : Addr) (i : Instr),
    operandAddress symbols operand = .ok a → memoryReference op m a = some i →
    ∃ w, lineWord symbols (.memoryReference op m operand) = .ok (some w) ∧ decodeWord w = ⟨.memoryReference, [i]⟩

/-- R107 (the image is in the canonical form of log entries 1 and 2): the image of words at different addresses reads
each word at its address, and no other word is set. -/
def Obligations.ImageHoldsTheWords : Prop :=
  ∀ words : List (Addr × Word), (words.map Prod.fst).Nodup →
    (imageOf words).wf = true ∧
    (∀ c ∈ words, (imageOf words).read c.1 = c.2) ∧
    ∀ a, a ∉ words.map Prod.fst → (imageOf words).read a = Config.unlistedWord
end

