-- ==== Sys2Proof/Laws/Arithmetic.lean ====
section
/-! SUPPORT. What the arithmetic, the rotations and the width changes do, said once. -/

namespace Sys2Proof.Machine

/-- The sum with its carry, as numbers: nothing is lost (spec/41_memory_reference.md R141). -/
theorem sum17_toNat (x y : Word) : (sum17 x y).toNat = x.toNat + y.toNat := by
  simp only [sum17, BitVec.toNat_add, BitVec.toNat_setWidth]
  have := x.isLt; have := y.isLt; omega

theorem sumWord_eq_add (x y : Word) : sumWord x y = x + y := by
  apply BitVec.eq_of_toNat_eq
  simp [sumWord, sum17_toNat, BitVec.toNat_add]

theorem carryOut_iff (x y : Word) : carryOut x y = true ↔ 65536 ≤ x.toNat + y.toNat := by
  have := x.isLt; have := y.isLt
  rw [carryOut, BitVec.getLsbD, sum17_toNat, Nat.testBit_eq_decide_div_mod_eq]
  simp only [decide_eq_true_eq]
  omega

/-- A zero-extended address keeps its low 12 bits (spec/20_memory.md R65). -/
@[simp] theorem addressOf_wordOf (a : Addr) : addressOf (wordOf a) = a := by
  apply BitVec.eq_of_toNat_eq
  have := a.isLt
  simpa [addressOf, wordOf] using this

theorem wordOf_addressOf_wordOf (a : Addr) : wordOf (addressOf (wordOf a)) = wordOf a := by simp

theorem isZero_iff (x : Word) : isZero x = true ↔ x = 0 := by simp [isZero]

theorem highBit_iff (x : Word) : highBit x = true ↔ x.toInt < 0 := by
  rw [highBit, ← BitVec.msb_eq_getLsbD_last (x := x), BitVec.msb_eq_toInt, decide_eq_true_eq]

/-- The bits of a word after a circular right shift (spec/42_register_reference.md R174). -/
theorem rotatedRight_getLsbD (e : Bool) (x : Word) (k : Nat) :
    (rotatedRight e x).getLsbD k = if k < 15 then x.getLsbD (k + 1) else decide (k = 15) && e := by
  unfold rotatedRight
  rw [BitVec.getLsbD_append]
  by_cases h : k < 15
  · simp [h, Nat.add_comm]
  · have : (k - 15 = 0) = (k = 15) := by simp; omega
    simp [h, BitVec.getLsbD_ofBool, this]

/-- The bits of a word after a circular left shift (spec/42_register_reference.md R175). -/
theorem rotatedLeft_getLsbD (e : Bool) (x : Word) (k : Nat) :
    (rotatedLeft e x).getLsbD k = if k = 0 then e else decide (k < 16) && x.getLsbD (k - 1) := by
  unfold rotatedLeft
  rw [BitVec.getLsbD_append]
  by_cases h : k = 0
  · simp [h]
  · have h1 : ¬ k < 1 := by omega
    have h2 : (k - 1 < 15) = (k < 16) := by simp; omega
    simp [h, h1, h2, BitVec.getLsbD_extractLsb']

end Sys2Proof.Machine
end

