-- ==== Sys2Proof/Laws/State.lean ====
section
/-! SUPPORT. One lemma per field of State for each named update, so that no proof unfolds an update. -/

namespace Sys2Proof.Machine

/-! A skip changes PC alone (spec/10_state.md R26). -/

@[simp] theorem State.skipIf_AC (s : State) (c : Bool) : (s.skipIf c).AC = s.AC := rfl
@[simp] theorem State.skipIf_DR (s : State) (c : Bool) : (s.skipIf c).DR = s.DR := rfl
@[simp] theorem State.skipIf_AR (s : State) (c : Bool) : (s.skipIf c).AR = s.AR := rfl
@[simp] theorem State.skipIf_IR (s : State) (c : Bool) : (s.skipIf c).IR = s.IR := rfl
@[simp] theorem State.skipIf_PC (s : State) (c : Bool) : (s.skipIf c).PC = (if c then s.PC + 1 else s.PC) := rfl
@[simp] theorem State.skipIf_TR (s : State) (c : Bool) : (s.skipIf c).TR = s.TR := rfl
@[simp] theorem State.skipIf_INPR (s : State) (c : Bool) : (s.skipIf c).INPR = s.INPR := rfl
@[simp] theorem State.skipIf_OUTR (s : State) (c : Bool) : (s.skipIf c).OUTR = s.OUTR := rfl
@[simp] theorem State.skipIf_I (s : State) (c : Bool) : (s.skipIf c).I = s.I := rfl
@[simp] theorem State.skipIf_E (s : State) (c : Bool) : (s.skipIf c).E = s.E := rfl
@[simp] theorem State.skipIf_IEN (s : State) (c : Bool) : (s.skipIf c).IEN = s.IEN := rfl
@[simp] theorem State.skipIf_R (s : State) (c : Bool) : (s.skipIf c).R = s.R := rfl
@[simp] theorem State.skipIf_S (s : State) (c : Bool) : (s.skipIf c).S = s.S := rfl
@[simp] theorem State.skipIf_FGI (s : State) (c : Bool) : (s.skipIf c).FGI = s.FGI := rfl
@[simp] theorem State.skipIf_FGO (s : State) (c : Bool) : (s.skipIf c).FGO = s.FGO := rfl
@[simp] theorem State.skipIf_M (s : State) (c : Bool) : (s.skipIf c).M = s.M := rfl
@[simp] theorem State.skipIf_hist (s : State) (c : Bool) : (s.skipIf c).hist = s.hist := rfl
@[simp] theorem State.skipIf_turns (s : State) (c : Bool) : (s.skipIf c).turns = s.turns := rfl

/-! A store changes memory alone (spec/20_memory.md R66). -/

@[simp] theorem State.storeAtAR_AC (s : State) (w : Word) : (s.storeAtAR w).AC = s.AC := rfl
@[simp] theorem State.storeAtAR_DR (s : State) (w : Word) : (s.storeAtAR w).DR = s.DR := rfl
@[simp] theorem State.storeAtAR_AR (s : State) (w : Word) : (s.storeAtAR w).AR = s.AR := rfl
@[simp] theorem State.storeAtAR_IR (s : State) (w : Word) : (s.storeAtAR w).IR = s.IR := rfl
@[simp] theorem State.storeAtAR_PC (s : State) (w : Word) : (s.storeAtAR w).PC = s.PC := rfl
@[simp] theorem State.storeAtAR_TR (s : State) (w : Word) : (s.storeAtAR w).TR = s.TR := rfl
@[simp] theorem State.storeAtAR_INPR (s : State) (w : Word) : (s.storeAtAR w).INPR = s.INPR := rfl
@[simp] theorem State.storeAtAR_OUTR (s : State) (w : Word) : (s.storeAtAR w).OUTR = s.OUTR := rfl
@[simp] theorem State.storeAtAR_I (s : State) (w : Word) : (s.storeAtAR w).I = s.I := rfl
@[simp] theorem State.storeAtAR_E (s : State) (w : Word) : (s.storeAtAR w).E = s.E := rfl
@[simp] theorem State.storeAtAR_IEN (s : State) (w : Word) : (s.storeAtAR w).IEN = s.IEN := rfl
@[simp] theorem State.storeAtAR_R (s : State) (w : Word) : (s.storeAtAR w).R = s.R := rfl
@[simp] theorem State.storeAtAR_S (s : State) (w : Word) : (s.storeAtAR w).S = s.S := rfl
@[simp] theorem State.storeAtAR_FGI (s : State) (w : Word) : (s.storeAtAR w).FGI = s.FGI := rfl
@[simp] theorem State.storeAtAR_FGO (s : State) (w : Word) : (s.storeAtAR w).FGO = s.FGO := rfl
@[simp] theorem State.storeAtAR_M (s : State) (w : Word) : (s.storeAtAR w).M = (s.M.write s.AR w) := rfl
@[simp] theorem State.storeAtAR_hist (s : State) (w : Word) : (s.storeAtAR w).hist = s.hist := rfl
@[simp] theorem State.storeAtAR_turns (s : State) (w : Word) : (s.storeAtAR w).turns = s.turns := rfl

/-! The operand read changes DR alone (spec/20_memory.md R67). -/

@[simp] theorem State.loadDR_AC (s : State) : (s.loadDR).AC = s.AC := rfl
@[simp] theorem State.loadDR_DR (s : State) : (s.loadDR).DR = (s.M.read s.AR) := rfl
@[simp] theorem State.loadDR_AR (s : State) : (s.loadDR).AR = s.AR := rfl
@[simp] theorem State.loadDR_IR (s : State) : (s.loadDR).IR = s.IR := rfl
@[simp] theorem State.loadDR_PC (s : State) : (s.loadDR).PC = s.PC := rfl
@[simp] theorem State.loadDR_TR (s : State) : (s.loadDR).TR = s.TR := rfl
@[simp] theorem State.loadDR_INPR (s : State) : (s.loadDR).INPR = s.INPR := rfl
@[simp] theorem State.loadDR_OUTR (s : State) : (s.loadDR).OUTR = s.OUTR := rfl
@[simp] theorem State.loadDR_I (s : State) : (s.loadDR).I = s.I := rfl
@[simp] theorem State.loadDR_E (s : State) : (s.loadDR).E = s.E := rfl
@[simp] theorem State.loadDR_IEN (s : State) : (s.loadDR).IEN = s.IEN := rfl
@[simp] theorem State.loadDR_R (s : State) : (s.loadDR).R = s.R := rfl
@[simp] theorem State.loadDR_S (s : State) : (s.loadDR).S = s.S := rfl
@[simp] theorem State.loadDR_FGI (s : State) : (s.loadDR).FGI = s.FGI := rfl
@[simp] theorem State.loadDR_FGO (s : State) : (s.loadDR).FGO = s.FGO := rfl
@[simp] theorem State.loadDR_M (s : State) : (s.loadDR).M = s.M := rfl
@[simp] theorem State.loadDR_hist (s : State) : (s.loadDR).hist = s.hist := rfl
@[simp] theorem State.loadDR_turns (s : State) : (s.loadDR).turns = s.turns := rfl

/-! An event changes the observer's history alone (spec/00_scope.md R12). -/

@[simp] theorem State.record_AC (s : State) (e : Event) : (s.record e).AC = s.AC := rfl
@[simp] theorem State.record_DR (s : State) (e : Event) : (s.record e).DR = s.DR := rfl
@[simp] theorem State.record_AR (s : State) (e : Event) : (s.record e).AR = s.AR := rfl
@[simp] theorem State.record_IR (s : State) (e : Event) : (s.record e).IR = s.IR := rfl
@[simp] theorem State.record_PC (s : State) (e : Event) : (s.record e).PC = s.PC := rfl
@[simp] theorem State.record_TR (s : State) (e : Event) : (s.record e).TR = s.TR := rfl
@[simp] theorem State.record_INPR (s : State) (e : Event) : (s.record e).INPR = s.INPR := rfl
@[simp] theorem State.record_OUTR (s : State) (e : Event) : (s.record e).OUTR = s.OUTR := rfl
@[simp] theorem State.record_I (s : State) (e : Event) : (s.record e).I = s.I := rfl
@[simp] theorem State.record_E (s : State) (e : Event) : (s.record e).E = s.E := rfl
@[simp] theorem State.record_IEN (s : State) (e : Event) : (s.record e).IEN = s.IEN := rfl
@[simp] theorem State.record_R (s : State) (e : Event) : (s.record e).R = s.R := rfl
@[simp] theorem State.record_S (s : State) (e : Event) : (s.record e).S = s.S := rfl
@[simp] theorem State.record_FGI (s : State) (e : Event) : (s.record e).FGI = s.FGI := rfl
@[simp] theorem State.record_FGO (s : State) (e : Event) : (s.record e).FGO = s.FGO := rfl
@[simp] theorem State.record_M (s : State) (e : Event) : (s.record e).M = s.M := rfl
@[simp] theorem State.record_hist (s : State) (e : Event) : (s.record e).hist = (s.hist ++ [e]) := rfl
@[simp] theorem State.record_turns (s : State) (e : Event) : (s.record e).turns = s.turns := rfl

/-! The effective address goes to AR and nothing else changes (spec/40_instruction_cycle.md R124). -/

@[simp] theorem State.withEA_AC (s : State) (m : AddrMode) (a : Addr) : (s.withEA m a).AC = s.AC := rfl
@[simp] theorem State.withEA_DR (s : State) (m : AddrMode) (a : Addr) : (s.withEA m a).DR = s.DR := rfl
@[simp] theorem State.withEA_AR (s : State) (m : AddrMode) (a : Addr) : (s.withEA m a).AR = (effectiveAddress m a s) := rfl
@[simp] theorem State.withEA_IR (s : State) (m : AddrMode) (a : Addr) : (s.withEA m a).IR = s.IR := rfl
@[simp] theorem State.withEA_PC (s : State) (m : AddrMode) (a : Addr) : (s.withEA m a).PC = s.PC := rfl
@[simp] theorem State.withEA_TR (s : State) (m : AddrMode) (a : Addr) : (s.withEA m a).TR = s.TR := rfl
@[simp] theorem State.withEA_INPR (s : State) (m : AddrMode) (a : Addr) : (s.withEA m a).INPR = s.INPR := rfl
@[simp] theorem State.withEA_OUTR (s : State) (m : AddrMode) (a : Addr) : (s.withEA m a).OUTR = s.OUTR := rfl
@[simp] theorem State.withEA_I (s : State) (m : AddrMode) (a : Addr) : (s.withEA m a).I = s.I := rfl
@[simp] theorem State.withEA_E (s : State) (m : AddrMode) (a : Addr) : (s.withEA m a).E = s.E := rfl
@[simp] theorem State.withEA_IEN (s : State) (m : AddrMode) (a : Addr) : (s.withEA m a).IEN = s.IEN := rfl
@[simp] theorem State.withEA_R (s : State) (m : AddrMode) (a : Addr) : (s.withEA m a).R = s.R := rfl
@[simp] theorem State.withEA_S (s : State) (m : AddrMode) (a : Addr) : (s.withEA m a).S = s.S := rfl
@[simp] theorem State.withEA_FGI (s : State) (m : AddrMode) (a : Addr) : (s.withEA m a).FGI = s.FGI := rfl
@[simp] theorem State.withEA_FGO (s : State) (m : AddrMode) (a : Addr) : (s.withEA m a).FGO = s.FGO := rfl
@[simp] theorem State.withEA_M (s : State) (m : AddrMode) (a : Addr) : (s.withEA m a).M = s.M := rfl
@[simp] theorem State.withEA_hist (s : State) (m : AddrMode) (a : Addr) : (s.withEA m a).hist = s.hist := rfl
@[simp] theorem State.withEA_turns (s : State) (m : AddrMode) (a : Addr) : (s.withEA m a).turns = s.turns := rfl

/-! The operand forms change AR and DR alone (spec/40_instruction_cycle.md R124). -/

@[simp] theorem State.loadOperand_AC (s : State) (m : AddrMode) (a : Addr) : (s.loadOperand m a).AC = s.AC := rfl
@[simp] theorem State.loadOperand_DR (s : State) (m : AddrMode) (a : Addr) : (s.loadOperand m a).DR = (s.M.read (effectiveAddress m a s)) := rfl
@[simp] theorem State.loadOperand_AR (s : State) (m : AddrMode) (a : Addr) : (s.loadOperand m a).AR = (effectiveAddress m a s) := rfl
@[simp] theorem State.loadOperand_IR (s : State) (m : AddrMode) (a : Addr) : (s.loadOperand m a).IR = s.IR := rfl
@[simp] theorem State.loadOperand_PC (s : State) (m : AddrMode) (a : Addr) : (s.loadOperand m a).PC = s.PC := rfl
@[simp] theorem State.loadOperand_TR (s : State) (m : AddrMode) (a : Addr) : (s.loadOperand m a).TR = s.TR := rfl
@[simp] theorem State.loadOperand_INPR (s : State) (m : AddrMode) (a : Addr) : (s.loadOperand m a).INPR = s.INPR := rfl
@[simp] theorem State.loadOperand_OUTR (s : State) (m : AddrMode) (a : Addr) : (s.loadOperand m a).OUTR = s.OUTR := rfl
@[simp] theorem State.loadOperand_I (s : State) (m : AddrMode) (a : Addr) : (s.loadOperand m a).I = s.I := rfl
@[simp] theorem State.loadOperand_E (s : State) (m : AddrMode) (a : Addr) : (s.loadOperand m a).E = s.E := rfl
@[simp] theorem State.loadOperand_IEN (s : State) (m : AddrMode) (a : Addr) : (s.loadOperand m a).IEN = s.IEN := rfl
@[simp] theorem State.loadOperand_R (s : State) (m : AddrMode) (a : Addr) : (s.loadOperand m a).R = s.R := rfl
@[simp] theorem State.loadOperand_S (s : State) (m : AddrMode) (a : Addr) : (s.loadOperand m a).S = s.S := rfl
@[simp] theorem State.loadOperand_FGI (s : State) (m : AddrMode) (a : Addr) : (s.loadOperand m a).FGI = s.FGI := rfl
@[simp] theorem State.loadOperand_FGO (s : State) (m : AddrMode) (a : Addr) : (s.loadOperand m a).FGO = s.FGO := rfl
@[simp] theorem State.loadOperand_M (s : State) (m : AddrMode) (a : Addr) : (s.loadOperand m a).M = s.M := rfl
@[simp] theorem State.loadOperand_hist (s : State) (m : AddrMode) (a : Addr) : (s.loadOperand m a).hist = s.hist := rfl
@[simp] theorem State.loadOperand_turns (s : State) (m : AddrMode) (a : Addr) : (s.loadOperand m a).turns = s.turns := rfl

/-! Fetch and decode change AR, IR, PC and I alone (spec/40_instruction_cycle.md R120 to R122). -/

@[simp] theorem fetch_AC (s : State) : (fetch s).AC = s.AC := rfl
@[simp] theorem fetch_DR (s : State) : (fetch s).DR = s.DR := rfl
@[simp] theorem fetch_AR (s : State) : (fetch s).AR = (fieldAddress (s.M.read s.PC)) := rfl
@[simp] theorem fetch_IR (s : State) : (fetch s).IR = (s.M.read s.PC) := rfl
@[simp] theorem fetch_PC (s : State) : (fetch s).PC = (s.PC + 1) := rfl
@[simp] theorem fetch_TR (s : State) : (fetch s).TR = s.TR := rfl
@[simp] theorem fetch_INPR (s : State) : (fetch s).INPR = s.INPR := rfl
@[simp] theorem fetch_OUTR (s : State) : (fetch s).OUTR = s.OUTR := rfl
@[simp] theorem fetch_I (s : State) : (fetch s).I = (fieldI (s.M.read s.PC)) := rfl
@[simp] theorem fetch_E (s : State) : (fetch s).E = s.E := rfl
@[simp] theorem fetch_IEN (s : State) : (fetch s).IEN = s.IEN := rfl
@[simp] theorem fetch_R (s : State) : (fetch s).R = s.R := rfl
@[simp] theorem fetch_S (s : State) : (fetch s).S = s.S := rfl
@[simp] theorem fetch_FGI (s : State) : (fetch s).FGI = s.FGI := rfl
@[simp] theorem fetch_FGO (s : State) : (fetch s).FGO = s.FGO := rfl
@[simp] theorem fetch_M (s : State) : (fetch s).M = s.M := rfl
@[simp] theorem fetch_hist (s : State) : (fetch s).hist = s.hist := rfl
@[simp] theorem fetch_turns (s : State) : (fetch s).turns = s.turns := rfl

/-! The interrupt cycle changes AR, TR, PC, IEN, R and one memory word (spec/60_exceptions.md R226). -/

@[simp] theorem interruptCycle_AC (s : State) : (interruptCycle s).AC = s.AC := rfl
@[simp] theorem interruptCycle_DR (s : State) : (interruptCycle s).DR = s.DR := rfl
@[simp] theorem interruptCycle_AR (s : State) : (interruptCycle s).AR = interruptSaveAddress := rfl
@[simp] theorem interruptCycle_IR (s : State) : (interruptCycle s).IR = s.IR := rfl
@[simp] theorem interruptCycle_PC (s : State) : (interruptCycle s).PC = (interruptSaveAddress + 1) := rfl
@[simp] theorem interruptCycle_TR (s : State) : (interruptCycle s).TR = (wordOf s.PC) := rfl
@[simp] theorem interruptCycle_INPR (s : State) : (interruptCycle s).INPR = s.INPR := rfl
@[simp] theorem interruptCycle_OUTR (s : State) : (interruptCycle s).OUTR = s.OUTR := rfl
@[simp] theorem interruptCycle_I (s : State) : (interruptCycle s).I = s.I := rfl
@[simp] theorem interruptCycle_E (s : State) : (interruptCycle s).E = s.E := rfl
@[simp] theorem interruptCycle_IEN (s : State) : (interruptCycle s).IEN = false := rfl
@[simp] theorem interruptCycle_R (s : State) : (interruptCycle s).R = false := rfl
@[simp] theorem interruptCycle_S (s : State) : (interruptCycle s).S = s.S := rfl
@[simp] theorem interruptCycle_FGI (s : State) : (interruptCycle s).FGI = s.FGI := rfl
@[simp] theorem interruptCycle_FGO (s : State) : (interruptCycle s).FGO = s.FGO := rfl
@[simp] theorem interruptCycle_M (s : State) : (interruptCycle s).M = (s.M.write interruptSaveAddress (wordOf s.PC)) := rfl
@[simp] theorem interruptCycle_hist (s : State) : (interruptCycle s).hist = s.hist := rfl
@[simp] theorem interruptCycle_turns (s : State) : (interruptCycle s).turns = s.turns := rfl

/-! The effective address reads memory alone. -/

@[simp] theorem effectiveAddress_direct (a : Addr) (s : State) : effectiveAddress .direct a s = a := rfl

@[simp] theorem effectiveAddress_indirect (a : Addr) (s : State) :
    effectiveAddress .indirect a s = addressOf (s.M.read a) := rfl

theorem effectiveAddress_of_memory {s t : State} (h : s.M = t.M) (m : AddrMode) (a : Addr) :
    effectiveAddress m a s = effectiveAddress m a t := by
  cases m <;> simp [h]

/-- In the direct mode AR holds the address field after T2 already, so T3 changes nothing (spec/40_instruction_cycle.md
R123). -/
theorem State.withEA_direct_of_AR {s : State} {a : Addr} (h : s.AR = a) : s.withEA .direct a = s := by
  subst h; rfl

end Sys2Proof.Machine
end

