-- ==== Sys2Proof/Laws/Cycle.lean ====
section
/-! SUPPORT. What the shared operations of a step can do, each said once: if it answers a next state, then one of these
cases holds. -/

namespace Sys2Proof.Machine

@[simp] theorem execAll_nil (s : State) : execAll [] s = .next s := rfl

/-- An instruction that completes hands its state to the rest of its word. -/
theorem execAll_cons_of_next {i : Instr} {s t : State} (h : exec i s = .next t) (rest : List Instr) :
    execAll (i :: rest) s = execAll rest t := by
  simp [execAll, h]

theorem execAll_cons_next {i : Instr} {rest : List Instr} {s t : State} :
    execAll (i :: rest) s = .next t ↔ ∃ u, exec i s = .next u ∧ execAll rest u = .next t := by
  cases h : exec i s <;> simp [execAll, h]

theorem execAll_append_of_next {l : List Instr} {s t : State} (h : execAll l s = .next t) (rest : List Instr) :
    execAll (l ++ rest) s = execAll rest t := by
  induction l generalizing s with
  | nil => simpa using congrArg (execAll rest) (Host.Outcome.next.inj h)
  | cons i l ih =>
    obtain ⟨u, hu, hl⟩ := execAll_cons_next.1 h
    rw [List.cons_append, execAll_cons_of_next hu]
    exact ih hl

/-- An instruction cycle is the word's instructions on the fetched state, then R from the state before the cycle. -/
theorem instructionCycle_next {s t : State} :
    instructionCycle s = .next t ↔
      ∃ u, execAll (decodeWord (s.M.read s.PC)).ops (fetch s) = .next u ∧ t = { u with R := interruptRequest s } := by
  unfold instructionCycle
  cases h : execAll (decodeWord (fetch s).IR).ops (fetch s) <;> rw [fetch_IR] at h <;> simp [h, eq_comm]

/-- A CPU step is an interrupt cycle or an instruction cycle of a running machine. -/
theorem cpuStep_next {s t : State} :
    cpuStep s = .next t ↔
      s.S = true ∧ ((s.R = true ∧ t = interruptCycle s) ∨ (s.R = false ∧ instructionCycle s = .next t)) := by
  unfold cpuStep
  cases s.S <;> cases s.R <;> simp [eq_comm]

theorem inputDeviceStep_some {c : Character} {s t : State} :
    inputDeviceStep c s = some t ↔ s.FGI = false ∧ t = { s with INPR := c, FGI := true } := by
  unfold inputDeviceStep
  cases s.FGI <;> simp [eq_comm]

theorem outputDeviceStep_some {s t : State} :
    outputDeviceStep s = some t ↔ s.FGO = false ∧ t = { s with FGO := true } := by
  unfold outputDeviceStep
  cases s.FGO <;> simp [eq_comm]

/-- Everything a step can do: a CPU step (with a CPU turn used up, if one was scheduled), a passed turn, or a step of
one of the devices. -/
theorem agentStep_next {s t : State} (h : agentStep s = .next t) :
    (s.turns = [] ∧ cpuStep s = .next t) ∨
    (∃ rest, s.turns = .cpu :: rest ∧ s.S = true ∧ cpuStep { s with turns := rest } = .next t) ∨
    (∃ turn rest, s.turns = turn :: rest ∧ t = { s with turns := rest }) ∨
    (∃ c rest, s.turns = .inputDevice c :: rest ∧ s.FGI = false ∧
      t = { s with INPR := c, FGI := true, turns := rest }) ∨
    (∃ rest, s.turns = .outputDevice :: rest ∧ s.FGO = false ∧ t = { s with FGO := true, turns := rest }) := by
  unfold agentStep at h
  split at h
  · next hs => exact .inl ⟨hs, h⟩
  · next rest hs =>
    split at h
    · next hS => exact .inr (.inl ⟨rest, hs, hS, h⟩)
    · exact .inr (.inr (.inl ⟨_, rest, hs, by simpa [passing, eq_comm] using h⟩))
  · next c rest hs =>
    cases hF : s.FGI with
    | true => exact .inr (.inr (.inl ⟨_, rest, hs, by simpa [passing, inputDeviceStep, hF, eq_comm] using h⟩))
    | false =>
      exact .inr (.inr (.inr (.inl ⟨c, rest, hs, rfl, by simpa [passing, inputDeviceStep, hF, eq_comm] using h⟩)))
  · next rest hs =>
    cases hF : s.FGO with
    | true => exact .inr (.inr (.inl ⟨_, rest, hs, by simpa [passing, outputDeviceStep, hF, eq_comm] using h⟩))
    | false =>
      exact .inr (.inr (.inr (.inr ⟨rest, hs, rfl, by simpa [passing, outputDeviceStep, hF, eq_comm] using h⟩)))

theorem step_eq_agentStep (s : State) : step s = agentStep s := rfl

/-- With no turn scheduled a step is the CPU's. -/
theorem step_of_no_turns {s : State} (h : s.turns = []) : step s = cpuStep s := by
  simp [step, agentStep, h]

end Sys2Proof.Machine
end

