-- ==== Sys2Proof/Laws/Memory.lean ====
section
/-! SUPPORT. The laws of memory: what a read gives after a write (spec/20_memory.md R66, R70), and that every memory
operation keeps the canonical form. -/

namespace Sys2Proof.Machine

/-! ## Reading after writing -/

theorem Memory.lookup_insert (m : Memory) (k j : Nat) (w : Word) :
    Memory.lookup j (Memory.insert k w m) = if k = j then w else Memory.lookup j m := by
  induction m with
  | nil => simp [Memory.insert, Memory.lookup]
  | cons c rest ih =>
    obtain ⟨a, v⟩ := c
    simp only [Memory.insert]
    split
    · simp [Memory.lookup]
    · split
      · next hk => subst hk; by_cases hj : k = j <;> simp [Memory.lookup, hj]
      · next hk =>
        simp only [Memory.lookup, ih]
        by_cases haj : a = j
        · have : k ≠ j := fun h => hk (h.trans haj.symm)
          simp [haj, this]
        · simp [haj]

theorem Memory.lookup_filter (m : Memory) (k j : Nat) :
    Memory.lookup j (m.filter (fun c => decide (c.1 ≠ k))) = if k = j then Config.unlistedWord else Memory.lookup j m := by
  induction m with
  | nil => simp [Memory.lookup]
  | cons c rest ih =>
    obtain ⟨a, v⟩ := c
    by_cases hak : a = k
    · subst hak
      simp only [List.filter_cons, ne_eq, not_true_eq_false, decide_false, Bool.false_eq_true, if_false, ih,
        Memory.lookup]
      by_cases haj : a = j <;> simp [haj]
    · simp only [List.filter_cons, ne_eq, hak, not_false_eq_true, decide_true, if_true, Memory.lookup, ih]
      by_cases haj : a = j
      · have : k ≠ j := fun h => hak (haj.trans h.symm)
        simp [haj, this]
      · simp [haj]

/-- One law for every read after a write: the word written at that address, and the old word at every other. -/
theorem Memory.read_write (m : Memory) (a b : Addr) (w : Word) :
    (m.write a w).read b = if a = b then w else m.read b := by
  unfold Memory.write Memory.read
  split
  · next h => rw [Memory.lookup_filter, h]; simp only [BitVec.toNat_inj]
  · rw [Memory.lookup_insert]; simp only [BitVec.toNat_inj]

@[simp] theorem Memory.read_write_same (m : Memory) (a : Addr) (w : Word) : (m.write a w).read a = w := by
  simp [Memory.read_write]

theorem Memory.read_write_other (m : Memory) {a b : Addr} (w : Word) (h : b ≠ a) :
    (m.write a w).read b = m.read b := by
  simp [Memory.read_write, Ne.symm h]

@[simp] theorem Memory.read_empty (a : Addr) : Memory.read [] a = Config.unlistedWord := rfl

/-! ## The canonical form -/

theorem Memory.wfFrom_cons (lowest a : Nat) (v : Word) (rest : Memory) :
    Memory.wfFrom lowest ((a, v) :: rest) = true ↔
      lowest ≤ a ∧ a < Config.memorySize ∧ v ≠ Config.unlistedWord ∧ Memory.wfFrom (a + 1) rest = true := by
  simp [Memory.wfFrom, and_assoc]

theorem Memory.wfFrom_mono {lowest lower : Nat} (h : lower ≤ lowest) :
    ∀ {m : Memory}, Memory.wfFrom lowest m = true → Memory.wfFrom lower m = true
  | [], _ => rfl
  | (a, v) :: rest, hm => by
    rw [Memory.wfFrom_cons] at hm ⊢
    exact ⟨h.trans hm.1, hm.2⟩

theorem Memory.wfFrom_insert {k : Nat} {w : Word} (hk : k < Config.memorySize) (hw : w ≠ Config.unlistedWord) :
    ∀ {m : Memory} {lowest : Nat}, lowest ≤ k → Memory.wfFrom lowest m = true →
      Memory.wfFrom lowest (Memory.insert k w m) = true
  | [], _, hl, _ => (Memory.wfFrom_cons ..).2 ⟨hl, hk, hw, rfl⟩
  | (a, v) :: rest, _, hl, hm => by
    rw [Memory.wfFrom_cons] at hm
    simp only [Memory.insert]
    split
    · next hka => exact (Memory.wfFrom_cons ..).2 ⟨hl, hk, hw, (Memory.wfFrom_cons ..).2 ⟨hka, hm.2⟩⟩
    · split
      · next _ he => subst he; exact (Memory.wfFrom_cons ..).2 ⟨hl, hk, hw, hm.2.2.2⟩
      · next hlt hne =>
        exact (Memory.wfFrom_cons ..).2
          ⟨hm.1, hm.2.1, hm.2.2.1, Memory.wfFrom_insert hk hw (by omega) hm.2.2.2⟩

theorem Memory.wfFrom_filter (p : Nat × Word → Bool) :
    ∀ {m : Memory} {lowest : Nat}, Memory.wfFrom lowest m = true → Memory.wfFrom lowest (m.filter p) = true
  | [], _, _ => rfl
  | (a, v) :: rest, _, hm => by
    rw [Memory.wfFrom_cons] at hm
    have ih := Memory.wfFrom_filter p hm.2.2.2
    rw [List.filter_cons]
    split
    · exact (Memory.wfFrom_cons ..).2 ⟨hm.1, hm.2.1, hm.2.2.1, ih⟩
    · exact Memory.wfFrom_mono (by omega) ih

/-- A write keeps the canonical form. -/
theorem Memory.wf_write {m : Memory} (h : m.wf = true) (a : Addr) (w : Word) : (m.write a w).wf = true := by
  unfold Memory.wf Memory.write at *
  split
  · exact Memory.wfFrom_filter _ h
  · next hw => exact Memory.wfFrom_insert a.isLt hw (Nat.zero_le _) h

/-- The empty memory, that of State.reset, is in the canonical form. -/
@[simp] theorem Memory.wf_empty : Memory.wf [] = true := rfl

theorem State.reset_memory_wf : State.reset.M.wf = true := rfl

end Sys2Proof.Machine
end

