-- ==== Sys2Proof/Laws/PerInstr.lean ====
section
/-! SUPPORT. A statement about every instruction as syntax, proved once per constructor: its word lies in its row of
the opcode table. -/

namespace Sys2Proof.Laws.MatchesTable

/-- The word of the instruction selects its row: the masked bits are the row's match. -/
def Statement (i : Instr) : Prop := i.encode &&& i.tableMask = i.tableMatch

/-- The opcode bits of a memory-reference word are the opcode (spec/30_encoding.md R95). -/
theorem memoryReferenceWord_opcode (op : BitVec 3) (m : AddrMode) (a : Addr) :
    memoryReferenceWord op m a &&& 0x7000 = (0 : BitVec 1) ++ op ++ (0 : BitVec 12) := by
  ext k hk
  simp only [memoryReferenceWord, BitVec.getElem_and, BitVec.getElem_append]
  interval_cases k <;> simp

theorem and (m : AddrMode) (a : Addr) : Statement (.and m a) := memoryReferenceWord_opcode 0 m a
theorem add (m : AddrMode) (a : Addr) : Statement (.add m a) := memoryReferenceWord_opcode 1 m a
theorem lda (m : AddrMode) (a : Addr) : Statement (.lda m a) := memoryReferenceWord_opcode 2 m a
theorem sta (m : AddrMode) (a : Addr) : Statement (.sta m a) := memoryReferenceWord_opcode 3 m a
theorem bun (m : AddrMode) (a : Addr) : Statement (.bun m a) := memoryReferenceWord_opcode 4 m a
theorem bsa (m : AddrMode) (a : Addr) : Statement (.bsa m a) := memoryReferenceWord_opcode 5 m a
theorem isz (m : AddrMode) (a : Addr) : Statement (.isz m a) := memoryReferenceWord_opcode 6 m a
theorem cla : Statement .cla := rfl
theorem cle : Statement .cle := rfl
theorem cma : Statement .cma := rfl
theorem cme : Statement .cme := rfl
theorem cir : Statement .cir := rfl
theorem cil : Statement .cil := rfl
theorem inc : Statement .inc := rfl
theorem spa : Statement .spa := rfl
theorem sna : Statement .sna := rfl
theorem sza : Statement .sza := rfl
theorem sze : Statement .sze := rfl
theorem hlt : Statement .hlt := rfl
theorem inp : Statement .inp := rfl
theorem out : Statement .out := rfl
theorem ski : Statement .ski := rfl
theorem sko : Statement .sko := rfl
theorem ion : Statement .ion := rfl
theorem iof : Statement .iof := rfl

end Sys2Proof.Laws.MatchesTable
end

