-- ==== Sys2Proof/Laws/Run.lean ====
section
/-! SUPPORT. Runs, one step at a time, and the induction over runs packaged once. -/

namespace Sys2Proof

open Machine

/-! ## Whose turn it is -/

theorem nextTurn_of_no_turns {s : State} (h : s.turns = []) : nextTurn s = .cpu := by simp [nextTurn, h]

theorem nextTurn_of_cons {s : State} {turn : Turn} {rest : List Turn} (h : s.turns = turn :: rest) :
    nextTurn s = turn := by simp [nextTurn, h]

/-- At its turn a running CPU takes its step, and a scheduled turn is used up. -/
theorem step_of_cpu_turn {s : State} (hS : s.S = true) (h : nextTurn s = .cpu) :
    step s = cpuStep { s with turns := s.turns.tail } := by
  obtain hs | ⟨turn, rest, hs⟩ : s.turns = [] ∨ ∃ turn rest, s.turns = turn :: rest := by cases s.turns <;> simp
  · rw [step_of_no_turns hs, hs, List.tail_nil, ← hs]
  · have hc : turn = .cpu := (nextTurn_of_cons hs).symm.trans h
    simp [step, agentStep, hs, hc, hS]

/-- Everything a step can do, by whose turn it is: an instruction cycle, an interrupt cycle, a passed turn, or a step of
one of the devices. -/
theorem step_next_cases {s t : State} (h : step s = .next t) :
    (AtInstruction s ∧ instructionCycle { s with turns := s.turns.tail } = .next t) ∨
    (AtInterrupt s ∧ t = interruptCycle { s with turns := s.turns.tail }) ∨
    (∃ rest, t = { s with turns := rest }) ∨
    (∃ c rest, s.FGI = false ∧ t = { s with INPR := c, FGI := true, turns := rest }) ∨
    (∃ rest, s.FGO = false ∧ t = { s with FGO := true, turns := rest }) := by
  have cpu (hS : s.S = true) (hn : nextTurn s = .cpu) :
      (AtInstruction s ∧ instructionCycle { s with turns := s.turns.tail } = .next t) ∨
      (AtInterrupt s ∧ t = interruptCycle { s with turns := s.turns.tail }) := by
    obtain ⟨-, ⟨hR, ht⟩ | ⟨hR, ht⟩⟩ := cpuStep_next.1 (step_of_cpu_turn hS hn ▸ h)
    · exact .inr ⟨⟨hS, hR, hn⟩, ht⟩
    · exact .inl ⟨⟨hS, hR, hn⟩, ht⟩
  obtain ⟨hs, hc⟩ | ⟨rest, hs, hS, -⟩ | ⟨-, rest, -, ht⟩ | ⟨c, rest, -, hF, ht⟩ | ⟨rest, -, hF, ht⟩ := agentStep_next h
  · exact (cpu (cpuStep_next.1 hc).1 (nextTurn_of_no_turns hs)).imp_right .inl
  · exact (cpu hS (nextTurn_of_cons hs)).imp_right .inl
  · exact .inr (.inr (.inl ⟨rest, ht⟩))
  · exact .inr (.inr (.inr (.inl ⟨c, rest, hF, ht⟩)))
  · exact .inr (.inr (.inr (.inr ⟨rest, hF, ht⟩)))

/-! ## Runs -/

@[simp] theorem runFrom_zero (s : State) : runFrom 0 s = .next s := rfl

/-- A run of one step more is a step and then a run. -/
theorem runFrom_succ (n : Nat) (s : State) :
    runFrom (n + 1) s =
      match step s with
      | .next t => runFrom n t
      | .fault f => .fault f
      | .refused r => .refused r := by
  unfold runFrom Sys2Proof.core
  simp only [Host.Core.run]
  cases step s <;> rfl

theorem runFrom_succ_next {n : Nat} {s t : State} :
    runFrom (n + 1) s = .next t ↔ ∃ u, step s = .next u ∧ runFrom n u = .next t := by
  rw [runFrom_succ]
  cases h : step s <;> simp

/-- What every step keeps, every run keeps. -/
theorem runFrom_keeps {P : State → Prop} (keeps : ∀ s t, P s → step s = .next t → P t) :
    ∀ (n : Nat) (s t : State), P s → runFrom n s = .next t → P t
  | 0, _, _, hs, h => Host.Outcome.next.inj h ▸ hs
  | n + 1, s, t, hs, h => by
    obtain ⟨u, hu, ht⟩ := runFrom_succ_next.1 h
    exact runFrom_keeps keeps n u t (keeps s u hs hu) ht

/-- What every instruction keeps, every word's instructions keep. -/
theorem execAll_keeps {P : State → Prop} {ops : List Instr}
    (keeps : ∀ i ∈ ops, ∀ s t, P s → exec i s = .next t → P t) :
    ∀ s t, P s → execAll ops s = .next t → P t := by
  induction ops with
  | nil => exact fun s t hs h => Host.Outcome.next.inj h ▸ hs
  | cons i ops ih =>
    intro s t hs h
    obtain ⟨u, hu, ht⟩ := execAll_cons_next.1 h
    exact ih (fun j hj => keeps j (List.mem_cons_of_mem i hj)) u t (keeps i List.mem_cons_self s u hs hu) ht

end Sys2Proof
end

