-- ==== Sys2Proof/Tests/Slice0.lean ====
section
/-! SUPPORT. Small tests. The expected values are those of spec/95_test_vectors.md (the vector's number stands in the
test's name or comment) or of a table of the spec; none is the model's own answer. The last part shows, for each
statement with hypotheses, a concrete state that meets them. -/

namespace Sys2Proof.Tests

open Machine

/-! ## WellFormed: each check refuses an ill-formed word -/

theorem test_wellFormed_refuses_two_memory_reference :
    InstrWord.wellFormed ⟨.memoryReference, [.lda .direct 1, .sta .direct 2]⟩ = false := by decide
theorem test_wellFormed_refuses_no_memory_reference : InstrWord.wellFormed ⟨.memoryReference, []⟩ = false := by decide
theorem test_wellFormed_refuses_other_group : InstrWord.wellFormed ⟨.registerReference, [.cla, .inp]⟩ = false := by decide
theorem test_wellFormed_refuses_memory_in_opcode_7 :
    InstrWord.wellFormed ⟨.inputOutput, [.isz .indirect 3]⟩ = false := by decide
theorem test_wellFormed_refuses_ascending_order : InstrWord.wellFormed ⟨.registerReference, [.cle, .cla]⟩ = false := by
  decide
theorem test_wellFormed_refuses_repetition : InstrWord.wellFormed ⟨.inputOutput, [.ion, .ion]⟩ = false := by decide
theorem test_wellFormed_accepts_combination : InstrWord.wellFormed ⟨.registerReference, [.cla, .cle]⟩ = true := by decide

/-! ## Decoding: each constructor's word, bit by bit from R91, R95, R96 and R97 -/

theorem test_decode_and : decodeWord 0b0000001100000000 = ⟨.memoryReference, [.and .direct 0x300]⟩ := by decide
theorem test_decode_add : decodeWord 0b1001001100000000 = ⟨.memoryReference, [.add .indirect 0x300]⟩ := by decide
theorem test_decode_lda : decodeWord 0b1010010100000000 = ⟨.memoryReference, [.lda .indirect 0x500]⟩ := by decide
theorem test_decode_sta : decodeWord 0b0011000100000110 = ⟨.memoryReference, [.sta .direct 0x106]⟩ := by decide
theorem test_decode_bun : decodeWord 0b1100000100000010 = ⟨.memoryReference, [.bun .indirect 0x102]⟩ := by decide
theorem test_decode_bsa : decodeWord 0b0101111111111111 = ⟨.memoryReference, [.bsa .direct 0xFFF]⟩ := by decide
theorem test_decode_isz : decodeWord 0b1110100000000001 = ⟨.memoryReference, [.isz .indirect 0x801]⟩ := by decide
theorem test_decode_cla : decodeWord 0b0111100000000000 = ⟨.registerReference, [.cla]⟩ := by decide
theorem test_decode_cle : decodeWord 0b0111010000000000 = ⟨.registerReference, [.cle]⟩ := by decide
theorem test_decode_cma : decodeWord 0b0111001000000000 = ⟨.registerReference, [.cma]⟩ := by decide
theorem test_decode_cme : decodeWord 0b0111000100000000 = ⟨.registerReference, [.cme]⟩ := by decide
theorem test_decode_cir : decodeWord 0b0111000010000000 = ⟨.registerReference, [.cir]⟩ := by decide
theorem test_decode_cil : decodeWord 0b0111000001000000 = ⟨.registerReference, [.cil]⟩ := by decide
theorem test_decode_inc : decodeWord 0b0111000000100000 = ⟨.registerReference, [.inc]⟩ := by decide
theorem test_decode_spa : decodeWord 0b0111000000010000 = ⟨.registerReference, [.spa]⟩ := by decide
theorem test_decode_sna : decodeWord 0b0111000000001000 = ⟨.registerReference, [.sna]⟩ := by decide
theorem test_decode_sza : decodeWord 0b0111000000000100 = ⟨.registerReference, [.sza]⟩ := by decide
theorem test_decode_sze : decodeWord 0b0111000000000010 = ⟨.registerReference, [.sze]⟩ := by decide
theorem test_decode_hlt : decodeWord 0b0111000000000001 = ⟨.registerReference, [.hlt]⟩ := by decide
theorem test_decode_inp : decodeWord 0b1111100000000000 = ⟨.inputOutput, [.inp]⟩ := by decide
theorem test_decode_out : decodeWord 0b1111010000000000 = ⟨.inputOutput, [.out]⟩ := by decide
theorem test_decode_ski : decodeWord 0b1111001000000000 = ⟨.inputOutput, [.ski]⟩ := by decide
theorem test_decode_sko : decodeWord 0b1111000100000000 = ⟨.inputOutput, [.sko]⟩ := by decide
theorem test_decode_ion : decodeWord 0b1111000010000000 = ⟨.inputOutput, [.ion]⟩ := by decide
theorem test_decode_iof : decodeWord 0b1111000001000000 = ⟨.inputOutput, [.iof]⟩ := by decide
/-- R98's own example, 7C00 = CLA + CLE. -/
theorem test_decode_combined : decodeWord 0x7C00 = ⟨.registerReference, [.cla, .cle]⟩ := by decide
/-- R100: the empty words, and a low bit of an input-output word. -/
theorem test_decode_empty :
    decodeWord 0x7000 = ⟨.registerReference, []⟩ ∧ decodeWord 0xF03F = ⟨.inputOutput, []⟩ ∧
      decodeWord 0xF801 = ⟨.inputOutput, [.inp]⟩ := by decide
theorem test_decodeTableWord : decodeTableWord 16 0xF040 = some .iof ∧ decodeTableWord 16 0x6000 = some (.isz .direct 0) := by
  decide

/-! ## One step of each instruction -/

/-- The reset state with PC at 0x200, where the vectors place their word. -/
def base : State := { State.reset with PC := 0x200 }

/-- One step from `s` with `w` placed at PC, seen through `f`. -/
def afterStep {α : Type} (w : Nat) (s : State) (f : State → α) : Option α :=
  match step (s.withFetchWord 16 w) with
  | .next t => some (f t)
  | .fault _ => none
  | .refused _ => none

-- V1, V2
theorem test_and_direct : afterStep 0x0300 { base with AC := 0xF0F0, M := [(0x300, 0x3C3C)] }
    (fun t => (t.PC, t.AC, t.DR, t.AR)) = some (0x201, 0x3030, 0x3C3C, 0x300) := by decide
theorem test_and_indirect : afterStep 0x8300 { base with AC := 0xFFFF, M := [(0x300, 0xF400), (0x400, 0x00FF)] }
    (fun t => (t.AC, t.DR, t.AR)) = some (0x00FF, 0x00FF, 0x400) := by decide
-- V4, V6
theorem test_add_clears_E : afterStep 0x1300 { base with AC := 5, E := true, M := [(0x300, 3)] }
    (fun t => (t.AC, t.E, t.DR)) = some (8, false, 3) := by decide
theorem test_add_signed_overflow : afterStep 0x1300 { base with AC := 0x7FFF, M := [(0x300, 1)] }
    (fun t => (t.AC, t.E)) = some (0x8000, false) := by decide
-- V11, V12
theorem test_lda_indirect : afterStep 0xA500 { base with M := [(0x500, 0x0600), (0x600, 0xBEEF)] }
    (fun t => (t.AC, t.DR, t.AR)) = some (0xBEEF, 0xBEEF, 0x600) := by decide
theorem test_lda_of_itself : afterStep 0x2200 base (fun t => (t.AC, t.PC)) = some (0x2200, 0x201) := by decide
-- V14, V15
theorem test_sta_indirect : afterStep 0xB300 { base with AC := 0xCAFE, M := [(0x300, 0x9ABC)] }
    (fun t => (t.M.read 0xABC, t.AR, t.M.read 0x300)) = some (0xCAFE, 0xABC, 0x9ABC) := by decide
theorem test_sta_next_instruction : afterStep 0x3201 { base with AC := 0x7001 }
    (fun t => (t.PC, t.M.read 0x201)) = some (0x201, 0x7001) := by decide
-- V17, V18
theorem test_bun_indirect : afterStep 0xC300 { base with M := [(0x300, 0xF123)] } (fun t => t.PC) = some 0x123 := by decide
theorem test_bun_itself : afterStep 0x4200 base (fun t => t.PC) = some 0x200 := by decide
-- V19, V21
theorem test_bsa_direct : afterStep 0x5300 { base with AC := 0x1111, M := [(0x300, 0xDEAD)] }
    (fun t => (t.PC, t.M.read 0x300, t.AR, t.AC)) = some (0x301, 0x0201, 0x301, 0x1111) := by decide
theorem test_bsa_wraps : afterStep 0x5FFF base (fun t => (t.PC, t.M.read 0xFFF)) = some (0x000, 0x0201) := by decide
-- V24, V26
theorem test_isz_skips : afterStep 0x6300 { base with AC := 0x1234, M := [(0x300, 0xFFFF)] }
    (fun t => (t.PC, t.M.read 0x300, t.DR, t.AC, t.E)) = some (0x202, 0, 0, 0x1234, false) := by decide
theorem test_isz_indirect : afterStep 0xE300 { base with M := [(0x300, 0x0400), (0x400, 0xFFFF)] }
    (fun t => (t.PC, t.M.read 0x400, t.M.read 0x300)) = some (0x202, 0, 0x0400) := by decide
-- V30 to V35
theorem test_cla : afterStep 0x7800 { base with AC := 0xABCD, E := true } (fun t => (t.AC, t.E)) = some (0, true) := by decide
theorem test_cle : afterStep 0x7400 { base with AC := 0xABCD, E := true } (fun t => (t.AC, t.E)) = some (0xABCD, false) := by
  decide
theorem test_cma : afterStep 0x7200 { base with AC := 5, E := true } (fun t => (t.AC, t.E)) = some (0xFFFA, true) := by decide
theorem test_cme : afterStep 0x7100 { base with E := true } (fun t => t.E) = some false := by decide
-- V37, V38, V40, V41
theorem test_cir : afterStep 0x7080 { base with AC := 0x8002, E := true } (fun t => (t.AC, t.E)) = some (0xC001, false) := by
  decide
theorem test_cir_E_enters : afterStep 0x7080 { base with E := true } (fun t => (t.AC, t.E)) = some (0x8000, false) := by
  decide
theorem test_cil : afterStep 0x7040 { base with AC := 0x4001, E := true } (fun t => (t.AC, t.E)) = some (0x8003, false) := by
  decide
theorem test_cil_all_ones : afterStep 0x7040 { base with AC := 0xFFFF } (fun t => (t.AC, t.E)) = some (0xFFFE, true) := by
  decide
-- V43, V44
theorem test_inc_wrap_keeps_E_clear : afterStep 0x7020 { base with AC := 0xFFFF } (fun t => (t.AC, t.E)) = some (0, false) := by
  decide
theorem test_inc_wrap_keeps_E_set : afterStep 0x7020 { base with AC := 0xFFFF, E := true }
    (fun t => (t.AC, t.E)) = some (0, true) := by decide
-- V47, V48
theorem test_spa_zero : afterStep 0x7010 base (fun t => t.PC) = some 0x202 := by decide
theorem test_spa_negative : afterStep 0x7010 { base with AC := 0x8000 } (fun t => t.PC) = some 0x201 := by decide
-- V49, V51
theorem test_sna_negative : afterStep 0x7008 { base with AC := 0xFFFF } (fun t => t.PC) = some 0x202 := by decide
theorem test_sna_positive : afterStep 0x7008 { base with AC := 0x7FFF } (fun t => t.PC) = some 0x201 := by decide
-- V53, V57
theorem test_sza_nonzero : afterStep 0x7004 { base with AC := 1 } (fun t => t.PC) = some 0x201 := by decide
theorem test_sza_wraps : afterStep 0x7004 { base with PC := 0xFFF } (fun t => t.PC) = some 0x001 := by decide
-- V54, V55
theorem test_sze_clear : afterStep 0x7002 { base with AC := 0xFFFF } (fun t => t.PC) = some 0x202 := by decide
theorem test_sze_set : afterStep 0x7002 { base with E := true } (fun t => t.PC) = some 0x201 := by decide
-- V56, V104
theorem test_hlt : afterStep 0x7001 { base with AC := 0x1234 } (fun t => (t.PC, t.S, t.AC)) = some (0x201, false, 0x1234) := by
  decide
theorem test_hlt_with_request : afterStep 0x7001 { base with IEN := true } (fun t => (t.S, t.R)) = some (false, true) := by
  decide
-- V80, V81
theorem test_inp : afterStep 0xF800 { base with AC := 0x1200, INPR := 0x41, FGI := true }
    (fun t => (t.AC, t.FGI, t.hist)) = some (0x1241, false, [.inp 0x41 true]) := by decide
theorem test_inp_flag_down : afterStep 0xF800 { base with AC := 0xFFFF, INPR := 0x41 }
    (fun t => (t.AC, t.FGI, t.hist)) = some (0xFF41, false, [.inp 0x41 false]) := by decide
-- V82, V83
theorem test_out : afterStep 0xF400 { base with AC := 0x1241 }
    (fun t => (t.OUTR, t.FGO, t.AC, t.hist)) = some (0x41, false, 0x1241, [.out 0x41 true]) := by decide
theorem test_out_flag_down : afterStep 0xF400 { base with AC := 0x0042, FGO := false, OUTR := 0x41 }
    (fun t => (t.OUTR, t.FGO, t.hist)) = some (0x42, false, [.out 0x42 false]) := by decide
-- V84 to V87
theorem test_ski_up : afterStep 0xF200 { base with FGI := true } (fun t => (t.PC, t.FGI)) = some (0x202, true) := by decide
theorem test_ski_down : afterStep 0xF200 base (fun t => t.PC) = some 0x201 := by decide
theorem test_sko_up : afterStep 0xF100 base (fun t => (t.PC, t.FGO)) = some (0x202, true) := by decide
theorem test_sko_down : afterStep 0xF100 { base with FGO := false } (fun t => t.PC) = some 0x201 := by decide
-- V88, V90
theorem test_ion_delays : afterStep 0xF080 base (fun t => (t.IEN, t.R)) = some (true, false) := by decide
theorem test_iof_keeps_request : afterStep 0xF040 { base with IEN := true, FGI := true, FGO := false }
    (fun t => (t.IEN, t.R)) = some (false, true) := by decide

/-! ## Combined words, interrupts, devices, the halted machine -/

-- V72, V94
theorem test_all_twelve : afterStep 0x7FFF { base with AC := 0x5555 }
    (fun t => (t.PC, t.AC, t.E, t.S)) = some (0x203, 0, true, false) := by decide
theorem test_inp_out : afterStep 0xFC00 { base with AC := 0x1200, INPR := 0x41, FGI := true }
    (fun t => (t.AC, t.OUTR, t.hist)) = some (0x1241, 0x41, [.inp 0x41 true, .out 0x41 true]) := by decide
-- V96: no indirect read for an input-output word
theorem test_no_indirect_read : afterStep 0xF800 { base with INPR := 1, FGI := true, M := [(0x800, 0x0123)] }
    (fun t => (t.AC, t.AR)) = some (0x0001, 0x800) := by decide

/-- The next state of a step, seen through `f`. -/
def stepped {α : Type} (s : State) (f : State → α) : Option α :=
  match step s with
  | .next t => some (f t)
  | .fault _ => none
  | .refused _ => none

-- V105, V106
theorem test_interrupt : stepped
    { base with PC := 0x234, AC := 0x5555, IEN := true, R := true, M := [(0x000, 0xFFFF), (0x234, 0x7800)] }
    (fun t => (t.M, [t.PC, t.AR], [t.IEN, t.R], [t.TR, t.AC, t.IR])) =
      some ([(0x000, 0x0234), (0x234, 0x7800)], [0x001, 0x000], [false, false], [0x0234, 0x5555, 0x0000]) := by decide
theorem test_interrupt_at_FFF : stepped { base with PC := 0xFFF, IEN := true, R := true, FGI := true }
    (fun t => (t.PC, t.TR, t.FGI)) = some (0x001, 0x0FFF, true) := by decide
-- V110 to V113
theorem test_input_device : stepped { base with turns := [.inputDevice 0x42] } (fun t => (t.INPR, t.FGI, t.PC)) =
    some (0x42, true, 0x200) := by decide
theorem test_input_device_waits : stepped { base with FGI := true, INPR := 0x41, turns := [.inputDevice 0x42] }
    (fun t => (t.INPR, t.turns)) = some (0x41, []) := by decide
theorem test_output_device : stepped { base with FGO := false, OUTR := 0x41, turns := [.outputDevice] }
    (fun t => (t.FGO, t.OUTR)) = some (true, 0x41) := by decide
-- R11, R125, R226: a scheduled turn of a running CPU is its step, and one turn is used up
theorem test_scheduled_cpu_turn : stepped { base with M := [(0x200, 0x7020)], turns := [.cpu, .outputDevice] }
    (fun t => (t.AC, t.PC, t.turns)) = some (1, 0x201, [.outputDevice]) := by decide
theorem test_scheduled_interrupt : stepped { base with R := true, turns := [.cpu, .cpu] }
    (fun t => (t.M, t.PC, t.turns)) = some ([(0x000, 0x0200)], 0x001, [.cpu]) := by decide
-- R127: a halted CPU has no step, even with R = 1
theorem test_halted_cpu_turn_passes : stepped { base with S := false, R := true, turns := [.cpu] }
    (fun t => (t.PC, t.R, t.turns)) = some (0x200, true, []) := by decide

/-! ## The assembler: P4's source text, and lines of section 2.7 of the vectors -/

theorem test_assemble_subroutine :
    assemble ["ORG 100", "BSA SUB      / Call subroutine", "HLT", "", "SUB,    HEX 0        / Return address stored here",
      "LDA X        / Subroutine code", "CMA", "INC", "STA X", "BUN SUB I    / Return (indirect through SUB)",
      "X,      DEC 5", "END"] =
    .ok [(0x100, 0x5102), (0x101, 0x7001), (0x102, 0x0000), (0x103, 0x2108), (0x104, 0x7200), (0x105, 0x7020),
      (0x106, 0x3108), (0x107, 0xC102), (0x108, 0x0005)] := by decide
theorem test_assemble_lines :
    assemble ["LDA 500", "LDA 500 I", "DEC 25", "DEC -10", "DEC -32768", "HEX 1A3F", "HEX 7C00", "END"] =
    .ok [(0, 0x2500), (1, 0xA500), (2, 0x0019), (3, 0xFFF6), (4, 0x8000), (5, 0x1A3F), (6, 0x7C00)] := by decide
-- R102, R107: a pseudo-instruction may have a label too, which is the location of its line; ORG's own is log entry 28
theorem test_assemble_labelled_directives :
    assemble ["ORG 100", "LDA LAST", "A, ORG 200", "BUN A", "LAST, END", "CLA"] = .ok [(0x100, 0x2201), (0x200, 0x4101)] := by
  decide
/-- The model's choices of log entry 28: a comment alone is no word, and small letters are not read as capitals. -/
theorem test_assemble_text_choices :
    assemble ["/ nothing", "CLA"] = .ok [(0, 0x7800)] ∧ assemble ["cla"] = .error (.badLine "cla".toList) ∧
      assemble ["HEX 1a3f"] = .error (.badLine "HEX 1a3f".toList) := by decide
theorem test_assemble_refuses_unknown_symbol : assemble ["BUN LOOP"] = .error (.undefinedSymbol "LOOP".toList) := by decide
theorem test_assemble_refuses_other_lines : assemble ["JMP 100"] = .error (.badLine "JMP 100".toList) := by decide

/-! ## Witnesses: for each statement with hypotheses, a state that meets all of them -/

theorem witness_DecodeOfEncode : InstrWord.wellFormed ⟨.registerReference, [.cma, .inc]⟩ = true := by decide

/-- A running machine with one instruction placed at PC. -/
def placed (w : Nat) : State := base.withFetchWord 16 w

theorem witness_AtInstruction : AtInstruction (placed 0x7020) := ⟨rfl, rfl, rfl⟩

/-- The same with the CPU's turn scheduled, and a device's after it. -/
def scheduled (w : Nat) : State := { placed w with turns := [.cpu, .outputDevice] }

theorem witness_AtInstruction_scheduled : AtInstruction (scheduled 0x7020) := ⟨rfl, rfl, rfl⟩

theorem witness_StepRunsTheDecodedWord :
    AtInstruction (scheduled 0x7C00) ∧
    ∃ t, execAll (decodeWord ((scheduled 0x7C00).M.read (scheduled 0x7C00).PC)).ops
      { scheduled 0x7C00 with
        IR := (scheduled 0x7C00).M.read (scheduled 0x7C00).PC
        PC := (scheduled 0x7C00).PC + 1
        AR := ((scheduled 0x7C00).M.read (scheduled 0x7C00).PC).extractLsb' 0 12
        I := ((scheduled 0x7C00).M.read (scheduled 0x7C00).PC).getLsbD 15
        turns := (scheduled 0x7C00).turns.tail } = .next t := ⟨⟨rfl, rfl, rfl⟩, _, rfl⟩

theorem witness_StepRunsOneInstruction :
    AtInstruction (placed 0x1300) ∧
    (decodeWord ((placed 0x1300).M.read (placed 0x1300).PC)).ops = [.add .direct 0x300] ∧
    ∃ t, exec (.add .direct 0x300)
      { placed 0x1300 with
        IR := (placed 0x1300).M.read (placed 0x1300).PC
        PC := (placed 0x1300).PC + 1
        AR := ((placed 0x1300).M.read (placed 0x1300).PC).extractLsb' 0 12
        I := ((placed 0x1300).M.read (placed 0x1300).PC).getLsbD 15
        turns := (placed 0x1300).turns.tail } = .next t :=
  ⟨⟨rfl, rfl, rfl⟩, by decide, _, rfl⟩

theorem witness_EveryStepCompletes_running : base.S = true := rfl
theorem witness_EveryStepCompletes_turns : ({ base with S := false, turns := [.outputDevice] } : State).turns ≠ [] := by
  decide

theorem witness_OnlyTheListedInstructionsWrite_memory :
    ∃ t, exec (.isz .direct 5) base = .next t ∧ t.M ≠ base.M ∧ t.DR ≠ base.DR ∧ t.AR ≠ base.AR :=
  ⟨_, rfl, by decide⟩
theorem witness_OnlyTheListedInstructionsWrite_AC_E :
    ∃ t, exec .cir { base with AC := 1 } = .next t ∧ t.AC ≠ 1 ∧ t.E ≠ base.E := ⟨_, rfl, by decide⟩
theorem witness_OnlyTheListedInstructionsWrite_PC_S :
    (∃ t, exec .spa base = .next t ∧ t.PC ≠ base.PC) ∧ (∃ t, exec .hlt base = .next t ∧ t.S ≠ base.S) :=
  ⟨⟨_, rfl, by decide⟩, ⟨_, rfl, by decide⟩⟩
theorem witness_OnlyTheListedInstructionsWrite_devices :
    (∃ t, exec .inp { base with FGI := true } = .next t ∧ t.FGI ≠ true ∧ t.hist ≠ base.hist) ∧
    (∃ t, exec .out { base with AC := 1 } = .next t ∧ t.OUTR ≠ base.OUTR ∧ t.FGO ≠ base.FGO) ∧
    (∃ t, exec .ion base = .next t ∧ t.IEN ≠ base.IEN) :=
  ⟨⟨_, rfl, by decide⟩, ⟨_, rfl, by decide⟩, ⟨_, rfl, by decide⟩⟩

theorem witness_StoreIsSeenByTheNextFetch :
    AtInstruction (placed 0x3201) ∧
    ((placed 0x3201).IEN && ((placed 0x3201).FGI || (placed 0x3201).FGO)) = false ∧
    (placed 0x3201).M.read (placed 0x3201).PC = 0#1 ++ 3#3 ++ ((placed 0x3201).PC + 1) ∧
    ∃ t, step (placed 0x3201) = .next t ∧ nextTurn t = .cpu :=
  ⟨⟨rfl, rfl, rfl⟩, rfl, by decide, _, rfl, rfl⟩

theorem witness_EmptyWordsDoNothing_register :
    AtInstruction (placed 0x7000) ∧ (placed 0x7000).M.read (placed 0x7000).PC = 0x7000 := ⟨⟨rfl, rfl, rfl⟩, by decide⟩
theorem witness_EmptyWordsDoNothing_input_output :
    AtInstruction (placed 0xF03F) ∧ (placed 0xF03F).M.read (placed 0xF03F).PC = 0xF#4 ++ 0#6 ++ 0x3F#6 :=
  ⟨⟨rfl, rfl, rfl⟩, by decide⟩

theorem witness_NonInterferingOrderIsFree :
    (∀ i ∈ [Instr.cla, .cme, .hlt], i.group ≠ .memoryReference) ∧
    [Instr.cla, .cme, .hlt].Pairwise (fun i j => i.interferes j = false) ∧
    [Instr.cla, .cme, .hlt].Perm [.hlt, .cla, .cme] := by decide

/-- A running machine about to take an interrupt. -/
def interrupted : State := { base with PC := 0x234, IEN := true, R := true }

theorem witness_InterruptCycleResult : AtInterrupt interrupted := ⟨rfl, rfl, rfl⟩
theorem witness_InterruptCycleResult_scheduled : AtInterrupt { interrupted with turns := [.cpu, .cpu] } := ⟨rfl, rfl, rfl⟩

theorem witness_InterruptsArePrecise :
    AtInstruction { placed 0x7020 with IEN := true } ∧
    (let s := { placed 0x7020 with IEN := true }; (s.IEN && (s.FGI || s.FGO)) = true) ∧
    ∃ t, step { placed 0x7020 with IEN := true } = .next t ∧ t.S = true ∧ nextTurn t = .cpu :=
  ⟨⟨rfl, rfl, rfl⟩, rfl, _, rfl, rfl, rfl⟩

theorem witness_IonDelaysTheInterrupt :
    AtInstruction (placed 0xF080) ∧ (placed 0xF080).IEN = false ∧ (placed 0xF080).FGO = true ∧
    (placed 0xF080).M.read (placed 0xF080).PC = 0xF080 ∧ ∃ t, step (placed 0xF080) = .next t ∧ nextTurn t = .cpu :=
  ⟨⟨rfl, rfl, rfl⟩, rfl, rfl, by decide, _, rfl, rfl⟩

/-- The end of a handler, ION then BUN 0 I, with a return address in M[0]. -/
def handlerEnd : State := { base with M := [(0x000, 0x0103), (0x200, 0xF080), (0x201, 0xC000)] }

theorem witness_InterruptReturn :
    AtInstruction handlerEnd ∧ handlerEnd.IEN = false ∧ handlerEnd.M.read handlerEnd.PC = 0xF080 ∧
    handlerEnd.M.read (handlerEnd.PC + 1) = 0xC000 ∧ ∃ t, step handlerEnd = .next t ∧ nextTurn t = .cpu :=
  ⟨⟨rfl, rfl, rfl⟩, rfl, by decide, by decide, _, rfl, rfl⟩

theorem witness_NoIonNoInterrupt :
    (placed 0xF040).IEN = false ∧ (placed 0xF040).R = false ∧
    .ion ∉ (decodeWord ((placed 0xF040).M.read (placed 0xF040).PC)).ops ∧ ∃ t, step (placed 0xF040) = .next t :=
  ⟨rfl, rfl, by decide, _, rfl⟩
/-- A device's turn while ION stands at PC. -/
theorem witness_NoIonNoInterrupt_device :
    ¬ AtInstruction { placed 0xF080 with turns := [.inputDevice 1] } ∧
    ∃ t, step { placed 0xF080 with turns := [.inputDevice 1] } = .next t := by
  exact ⟨fun h => by simp [AtInstruction, nextTurn] at h, _, rfl⟩

theorem witness_InputDeviceTurn_ready :
    ({ base with turns := [.inputDevice 0x42] } : State).turns = .inputDevice 0x42 :: [] ∧ base.FGI = false := ⟨rfl, rfl⟩
theorem witness_InputDeviceTurn_flag_up :
    ({ base with FGI := true, turns := [.inputDevice 0x42] } : State).turns = .inputDevice 0x42 :: [] ∧
    ({ base with FGI := true, turns := [.inputDevice 0x42] } : State).FGI = true := ⟨rfl, rfl⟩
theorem witness_OutputDeviceTurn_busy :
    ({ base with FGO := false, turns := [.outputDevice] } : State).turns = .outputDevice :: [] ∧
    ({ base with FGO := false, turns := [.outputDevice] } : State).FGO = false := ⟨rfl, rfl⟩
theorem witness_OutputDeviceTurn_flag_up :
    ({ base with turns := [.outputDevice] } : State).turns = .outputDevice :: [] ∧ base.FGO = true := ⟨rfl, rfl⟩

theorem witness_FlaggedCharacterIsKept :
    ∃ t, step { base with FGI := true, turns := [.inputDevice 0x42] } = .next t ∧ t.INPR = base.INPR := ⟨_, rfl, rfl⟩

theorem witness_HistoryOnlyGrows :
    ∃ t, step (placed 0xF400) = .next t ∧ t.hist ≠ (placed 0xF400).hist := ⟨_, rfl, by decide⟩

theorem witness_EveryStepKeepsTheBoundaryInvariant :
    BoundaryInvariant base ∧ ∃ t, step base = .next t := ⟨⟨rfl, rfl, rfl, rfl⟩, _, rfl⟩

theorem witness_OnlyHltStopsTheMachine_stopping :
    ∃ t, step (placed 0x7001) = .next t ∧ (placed 0x7001).S = true ∧ t.S = false := ⟨_, rfl, rfl, rfl⟩
theorem witness_OnlyHltStopsTheMachine_running :
    ∃ t, step (placed 0x7020) = .next t ∧ t.S = true := ⟨_, rfl, rfl⟩

theorem witness_HaltedIsFinal :
    HasEnded { base with S := false, turns := [.inputDevice 1, .cpu] } ∧
    ∃ t, runFrom 2 { base with S := false, turns := [.inputDevice 1, .cpu] } = .next t := ⟨rfl, _, rfl⟩

theorem witness_HaltedMachineStops :
    ({ base with S := false } : State).S = false ∧ ({ base with S := false } : State).turns = [] := ⟨rfl, rfl⟩

theorem witness_HiddenRegistersAreNeverRead :
    SameVisible base { base with AR := 5, IR := 0x1234, I := true, DR := 6, TR := 7 } := rfl

theorem witness_SubroutineCallReturns_call :
    AtInstruction (placed 0x5300) ∧ (placed 0x5300).M.read (placed 0x5300).PC = 0#1 ++ 5#3 ++ 0x300#12 :=
  ⟨⟨rfl, rfl, rfl⟩, by decide⟩
/-- The call leaves 0x0201 at 0x300; a later state that still holds it, at a `BUN 300 I`. -/
theorem witness_SubroutineCallReturns_return :
    ∃ t, step (placed 0x5300) = .next t ∧
      AtInstruction { base with M := [(0x200, 0xC300), (0x300, 0x0201)] } ∧
      Memory.read [(0x200, 0xC300), (0x300, 0x0201)] 0x200 = 1#1 ++ 4#3 ++ 0x300#12 ∧
      Memory.read [(0x200, 0xC300), (0x300, 0x0201)] 0x300 = t.M.read 0x300 :=
  ⟨_, rfl, ⟨rfl, rfl, rfl⟩, by decide, by decide⟩

theorem witness_EqualMemoriesAreEqualData :
    Memory.wf [(0x000, 1), (0xFFF, 2)] = true ∧
    Memory.wf (Memory.write (Memory.write [] 0xFFF 2) 0x000 1) = true ∧
    ∀ a : Addr, Memory.read [(0x000, 1), (0xFFF, 2)] a = (Memory.write (Memory.write [] 0xFFF 2) 0x000 1).read a :=
  ⟨by decide, by decide, fun _ => rfl⟩

theorem witness_DecimalConstants : (-32768 : Int) ≤ -32768 ∧ (-32768 : Int) ≤ 32767 ∧ (32767 : Int) < 32768 := by decide

theorem witness_AssembledLineDecodes :
    operandAddress [("SUB".toList, 0x102)] "SUB".toList = .ok 0x102 ∧
    memoryReference 4 .indirect 0x102 = some (.bun .indirect 0x102) := by decide

theorem witness_ImageHoldsTheWords :
    ([(0x100, 0x5102), (0x101, 0x7001)] : List (Addr × Word)).map Prod.fst |>.Nodup := by decide

end Sys2Proof.Tests
end

/-! PROOFS. The decoder on a word given by its three fields (spec/30_encoding.md R91, R94), the words of single
instructions, and the statements of 30_encoding.md about them. -/

namespace Sys2Proof

/-! ## The fields of the word `I ++ opcode ++ a` (R91) -/

/-- A bit of a word lies in the address field, in the opcode, or is I. -/
theorem getLsbD_fields (i : BitVec 1) (op : BitVec 3) (a : Addr) (k : Nat) :
    BitVec.getLsbD (w := 16) (i ++ op ++ a) k =
      if k < 12 then a.getLsbD k else if k < 15 then op.getLsbD (k - 12) else i.getLsbD (k - 15) := by
  have hop : k - 12 < 3 ↔ k < 15 := by omega
  have hi : k - 12 - 3 = k - 15 := by omega
  calc BitVec.getLsbD (w := 16) (i ++ op ++ a) k
      = if k < 12 then a.getLsbD k else (i ++ op).getLsbD (k - 12) := BitVec.getLsbD_append
    _ = _ := by simp only [BitVec.getLsbD_append, hop, hi]

@[simp] theorem fieldI_fields (i : BitVec 1) (op : BitVec 3) (a : Addr) :
    fieldI (i ++ op ++ a) = i.getLsbD 0 := getLsbD_fields i op a 15

@[simp] theorem fieldOpcode_fields (i : BitVec 1) (op : BitVec 3) (a : Addr) :
    fieldOpcode (i ++ op ++ a) = op := by
  ext k hk
  have hbit : 12 + k < 15 := by omega
  simp [fieldOpcode, getLsbD_fields, hbit, BitVec.getLsbD_eq_getElem hk]

@[simp] theorem fieldAddress_fields (i : BitVec 1) (op : BitVec 3) (a : Addr) :
    fieldAddress (i ++ op ++ a) = a := by
  ext k hk
  simp [fieldAddress, getLsbD_fields, hk]

@[simp] theorem modeOf_bit (m : AddrMode) : modeOf (m.bit.getLsbD 0) = m := by cases m <;> rfl

/-! ## The three groups of R94 -/

/-- The first arm of R94: an opcode of the table of R95. -/
theorem decodeWord_memoryReferenceWord {op : BitVec 3} {m : AddrMode} {a : Addr} {i : Instr}
    (h : memoryReference op m a = some i) : decodeWord (memoryReferenceWord op m a) = ⟨.memoryReference, [i]⟩ := by
  simp only [decodeWord, memoryReferenceWord, fieldI_fields, fieldOpcode_fields, fieldAddress_fields,
    modeOf_bit, h]

/-- Opcode 7 is no memory reference. -/
@[simp] theorem memoryReference_seven (m : AddrMode) (a : Addr) : memoryReference 7#3 m a = none := rfl

theorem decodeWord_registerReference (m : Addr) :
    decodeWord (0#1 ++ 7#3 ++ m) = ⟨.registerReference, selected m registerReferenceTable⟩ := by
  simp only [decodeWord, fieldI_fields, fieldOpcode_fields, fieldAddress_fields, memoryReference_seven]
  rfl

theorem decodeWord_inputOutput (m : Addr) :
    decodeWord (1#1 ++ 7#3 ++ m) = ⟨.inputOutput, selected m inputOutputTable⟩ := by
  simp only [decodeWord, fieldI_fields, fieldOpcode_fields, fieldAddress_fields, memoryReference_seven]
  rfl

/-! ## One select bit (R96, R97) -/

/-- No operation is selected when every select bit of the table is 0. -/
theorem selected_eq_nil {m : Addr} {table : List (Nat × Instr)} (h : ∀ p ∈ table, m.getLsbD p.1 = false) :
    selected m table = [] := by
  induction table with
  | nil => rfl
  | cons p rest ih =>
    obtain ⟨hp, hrest⟩ := List.forall_mem_cons.1 h
    simp [selected, hp, ih hrest]

/-- A select bit alone selects its own row alone, in a table where no two rows share a select bit. -/
theorem selected_twoPow {table : List (Nat × Instr)} {k : Nat} {i : Instr} (hk : k < 12)
    (distinct : (table.map Prod.fst).Nodup) (hmem : (k, i) ∈ table) :
    selected (BitVec.twoPow 12 k) table = [i] := by
  induction table with
  | nil => simp at hmem
  | cons p rest ih =>
    obtain ⟨hfirst, hdistinct⟩ := List.nodup_cons.1 distinct
    rcases List.mem_cons.1 hmem with rfl | hrest
    · have hnone : selected (BitVec.twoPow 12 k) rest = [] :=
        selected_eq_nil fun q hq => by
          have hne : k ≠ q.1 := fun h => hfirst (List.mem_map.2 ⟨q, hq, h.symm⟩)
          simp [hne]
      simp [selected, hk, hnone]
    · have hne : k ≠ p.1 := fun h => hfirst (List.mem_map.2 ⟨_, hrest, h⟩)
      simpa [selected, hne] using ih hdistinct hrest

/-! ## The word of one instruction -/

theorem Instr.selectBit_lt (i : Instr) : i.selectBit < 12 := by cases i <;> simp [selectBit]

/-- An operation's row of the table of R96, and its canonical word. -/
theorem registerReference_row {i : Instr} (h : i.group = .registerReference) :
    (i.selectBit, i) ∈ registerReferenceTable ∧ i.encode = 0#1 ++ 7#3 ++ BitVec.twoPow 12 i.selectBit := by
  cases i <;> cases h <;> decide

/-- An operation's row of the table of R97, and its canonical word. -/
theorem inputOutput_row {i : Instr} (h : i.group = .inputOutput) :
    (i.selectBit, i) ∈ inputOutputTable ∧ i.encode = 1#1 ++ 7#3 ++ BitVec.twoPow 12 i.selectBit := by
  cases i <;> cases h <;> decide

/-- A memory-reference instruction's row of the table of R95, and its word. -/
theorem memoryReference_row {i : Instr} (h : i.group = .memoryReference) :
    ∃ op m a, memoryReference op m a = some i ∧ i.encode = memoryReferenceWord op m a := by
  cases i <;> cases h <;> exact ⟨_, _, _, rfl, rfl⟩

/-- The word of one instruction, whatever its group and operands, decodes to that instruction and no other (R94). -/
theorem decodeWord_encode (i : Instr) : decodeWord i.encode = ⟨i.group, [i]⟩ := by
  cases h : i.group with
  | memoryReference =>
    obtain ⟨op, m, a, hrow, hword⟩ := memoryReference_row h
    rw [hword, decodeWord_memoryReferenceWord hrow]
  | registerReference =>
    obtain ⟨hrow, hword⟩ := registerReference_row h
    rw [hword, decodeWord_registerReference, selected_twoPow i.selectBit_lt (by decide) hrow]
  | inputOutput =>
    obtain ⟨hrow, hword⟩ := inputOutput_row h
    rw [hword, decodeWord_inputOutput, selected_twoPow i.selectBit_lt (by decide) hrow]

/-! ## The statements -/

/-- Settles O1: each of the fourteen words is `Instr.encode` of its instruction (R95). -/
theorem memoryReferenceWordsDecode : Obligations.MemoryReferenceWordsDecode := fun a =>
  ⟨decodeWord_encode (.and .direct a), decodeWord_encode (.and .indirect a),
   decodeWord_encode (.add .direct a), decodeWord_encode (.add .indirect a),
   decodeWord_encode (.lda .direct a), decodeWord_encode (.lda .indirect a),
   decodeWord_encode (.sta .direct a), decodeWord_encode (.sta .indirect a),
   decodeWord_encode (.bun .direct a), decodeWord_encode (.bun .indirect a),
   decodeWord_encode (.bsa .direct a), decodeWord_encode (.bsa .indirect a),
   decodeWord_encode (.isz .direct a), decodeWord_encode (.isz .indirect a)⟩

/-- Settles O2: each canonical word is `Instr.encode` of its operation (R96, R97). -/
theorem canonicalWordsDecode : Obligations.CanonicalWordsDecode :=
  ⟨decodeWord_encode .cla, decodeWord_encode .cle, decodeWord_encode .cma, decodeWord_encode .cme,
   decodeWord_encode .cir, decodeWord_encode .cil, decodeWord_encode .inc, decodeWord_encode .spa,
   decodeWord_encode .sna, decodeWord_encode .sza, decodeWord_encode .sze, decodeWord_encode .hlt,
   decodeWord_encode .inp, decodeWord_encode .out, decodeWord_encode .ski, decodeWord_encode .sko,
   decodeWord_encode .ion, decodeWord_encode .iof⟩

end Sys2Proof

/-! PROOFS. The memory-reference instructions ADD, LDA and STA (spec/41_memory_reference.md R141 to R143): what the
operand forms and the adder answer, and the statements of 41_memory_reference.md about the three. -/

namespace Sys2Proof

open Machine

/-! ## The operand forms and the adder -/

/-- The operand read leaves the effective address in AR and the operand word in DR, and changes nothing else (R124). -/
theorem loadOperand_eq (m : AddrMode) (a : Addr) (s : State) :
    s.loadOperand m a = { s with AR := effectiveAddress m a s, DR := s.M.read (effectiveAddress m a s) } := rfl

theorem sumWord_toNat (x y : Word) : (sumWord x y).toNat = (x.toNat + y.toNat) % 65536 := by
  rw [sumWord_eq_add, BitVec.toNat_add]

theorem carryOut_toNat (x y : Word) : (carryOut x y).toNat = (x.toNat + y.toNat) / 65536 := by
  have hx := x.isLt
  have hy := y.isLt
  have hcarry := carryOut_iff x y
  cases h : carryOut x y with
  | false =>
    have hsmall : ¬ 65536 ≤ x.toNat + y.toNat := by simpa [h] using hcarry
    simp only [Bool.toNat_false]; omega
  | true =>
    have hlarge : 65536 ≤ x.toNat + y.toNat := hcarry.1 h
    simp only [Bool.toNat_true]; omega

/-- The word ADD puts in AC and the bit it puts in E are the two parts of the 17-bit sum: together they lose nothing
(R141). -/
theorem sumWord_add_carryOut (x y : Word) :
    (sumWord x y).toNat + 65536 * (carryOut x y).toNat = x.toNat + y.toNat := by
  rw [sumWord_toNat, carryOut_toNat]
  exact Nat.mod_add_div (x.toNat + y.toNat) 65536

/-! ## The three instructions, once each -/

theorem exec_add (m : AddrMode) (a : Addr) (s : State) :
    exec (.add m a) s = .next { s.loadOperand m a with
      AC := sumWord s.AC (s.M.read (effectiveAddress m a s))
      E := carryOut s.AC (s.M.read (effectiveAddress m a s)) } := rfl

theorem exec_lda (m : AddrMode) (a : Addr) (s : State) :
    exec (.lda m a) s = .next { s.loadOperand m a with AC := s.M.read (effectiveAddress m a s) } := rfl

theorem exec_sta (m : AddrMode) (a : Addr) (s : State) :
    exec (.sta m a) s = .next ((s.withEA m a).storeAtAR s.AC) := rfl

/-! ## The statements -/

/-- Settles O10: the sum and the carry are the adder's, which `sumWord_add_carryOut` puts together again (R141). -/
theorem addResult : Obligations.AddResult := fun m a s =>
  ⟨sumWord s.AC (s.M.read (effectiveAddress m a s)), carryOut s.AC (s.M.read (effectiveAddress m a s)),
   by rw [exec_add, loadOperand_eq], sumWord_add_carryOut _ _⟩

/-- Settles O11: DR is the operand word after the operand read, and AC is copied from it (R142). -/
theorem ldaResult : Obligations.LdaResult := fun m a s => by
  rw [exec_lda, loadOperand_eq]

/-- Settles O12: the state after STA is a store of AC at the effective address, so the laws of a read after a write
give its memory (R143). -/
theorem staResult : Obligations.StaResult := fun m a s =>
  ⟨(s.withEA m a).storeAtAR s.AC, exec_sta m a s, rfl,
   Memory.read_write_same s.M (effectiveAddress m a s) s.AC,
   fun _ hb => Memory.read_write_other s.M s.AC hb⟩

end Sys2Proof

/-! PROOFS. The register-reference instructions CLA, CLE, CMA, CME, CIR and CIL (spec/42_register_reference.md R170 to
R175): what each does to the state, and the statements of 42_register_reference.md about the six. -/

namespace Sys2Proof

open Machine

/-! ## The complement -/

/-- Inverting all 16 bits of a word is taking it from the word of sixteen ones (R172). -/
theorem word_not_eq_sub (x : Word) : ~~~x = 0xFFFF - x :=
  have hones : (0xFFFF : Word) = BitVec.allOnes 16 := rfl
  calc ~~~x = BitVec.allOnes 16 - x := (BitVec.allOnes_sub_eq_not x).symm
    _ = 0xFFFF - x := by rw [hones]

/-! ## The six instructions, once each -/

theorem exec_cla (s : State) : exec .cla s = .next { s with AC := 0 } := rfl

theorem exec_cle (s : State) : exec .cle s = .next { s with E := false } := rfl

theorem exec_cma (s : State) : exec .cma s = .next { s with AC := ~~~s.AC } := rfl

theorem exec_cme (s : State) : exec .cme s = .next { s with E := !s.E } := rfl

theorem exec_cir (s : State) :
    exec .cir s = .next { s with AC := rotatedRight s.E s.AC, E := s.AC.getLsbD 0 } := rfl

theorem exec_cil (s : State) :
    exec .cil s = .next { s with AC := rotatedLeft s.E s.AC, E := s.AC.getLsbD 15 } := rfl

/-! ## The bits of a word after a circular shift, one equation per case -/

theorem rotatedRight_getLsbD_top (e : Bool) (x : Word) : (rotatedRight e x).getLsbD 15 = e := by
  rw [rotatedRight_getLsbD]; simp

theorem rotatedRight_getLsbD_of_lt (e : Bool) (x : Word) {k : Nat} (hk : k < 15) :
    (rotatedRight e x).getLsbD k = x.getLsbD (k + 1) := by
  rw [rotatedRight_getLsbD, if_pos hk]

theorem rotatedLeft_getLsbD_zero (e : Bool) (x : Word) : (rotatedLeft e x).getLsbD 0 = e := by
  rw [rotatedLeft_getLsbD, if_pos rfl]

theorem rotatedLeft_getLsbD_succ (e : Bool) (x : Word) {k : Nat} (hk : k < 15) :
    (rotatedLeft e x).getLsbD (k + 1) = x.getLsbD k := by
  have hword : k + 1 < 16 := by omega
  rw [rotatedLeft_getLsbD]; simp [hword]

/-! ## The statements -/

/-- Settles O16: each instruction's rule is its clause, and CMA's complement is the subtraction from 0xFFFF
(`word_not_eq_sub`, R172). -/
theorem clearAndComplementResults : Obligations.ClearAndComplementResults := fun s =>
  ⟨exec_cla s, exec_cle s, by rw [exec_cma, word_not_eq_sub], exec_cme s⟩

/-- Settles O17: AC holds the rotated word, whose end bit is the old E and whose other fifteen bits are the old ones
moved by one place (R174, R175). -/
theorem circularShiftResults : Obligations.CircularShiftResults := fun s =>
  ⟨⟨rotatedRight s.E s.AC, s.AC.getLsbD 0, exec_cir s, rfl, rotatedRight_getLsbD_top s.E s.AC,
     fun _ hk => rotatedRight_getLsbD_of_lt s.E s.AC hk⟩,
   ⟨rotatedLeft s.E s.AC, s.AC.getLsbD 15, exec_cil s, rfl, rotatedLeft_getLsbD_zero s.E s.AC,
     fun _ hk => rotatedLeft_getLsbD_succ s.E s.AC hk⟩⟩

end Sys2Proof

/-! PROOFS. The input-output instructions INP and OUT (spec/43_input_output.md R200, R201): the two bytes of a word
whose low byte is replaced, what each instruction does to the state, and the statements of 43_input_output.md about the
two. -/

namespace Sys2Proof

open Machine

/-! ## The two bytes of AC after a character is put in it -/

theorem withLowByte_low (x : Word) (c : Character) : (withLowByte x c).extractLsb' 0 8 = c :=
  BitVec.extractLsb'_append_eq_right

theorem withLowByte_high (x : Word) (c : Character) :
    (withLowByte x c).extractLsb' 8 8 = x.extractLsb' 8 8 :=
  BitVec.extractLsb'_append_eq_left

/-! ## The two instructions, once each

Neither tests its flag: the flag's value goes into the event and the flag is cleared. -/

theorem exec_inp (s : State) :
    exec .inp s = .next { s.record (.inp s.INPR s.FGI) with AC := withLowByte s.AC s.INPR, FGI := false } := rfl

theorem exec_out (s : State) :
    exec .out s = .next { s.record (.out (lowByte s.AC) s.FGO) with OUTR := lowByte s.AC, FGO := false } := rfl

/-! ## The statements -/

/-- Settles O22: the word INP leaves in AC is `withLowByte` of AC and INPR, whose two bytes are INPR and AC's old high
byte (R200). -/
theorem inpResult : Obligations.InpResult := fun s =>
  ⟨withLowByte s.AC s.INPR, exec_inp s, withLowByte_low s.AC s.INPR, withLowByte_high s.AC s.INPR⟩

/-- Settles O23: OUT's rule is the statement, `lowByte` being the bits 7 to 0 of AC (R201). -/
theorem outResult : Obligations.OutResult := exec_out

end Sys2Proof

/-! PROOFS. The two opcode-7 groups under one description, the select bits of a word as a set, and decoding and encoding
as inverses (spec/30_encoding.md R94 to R100): the statements about every word and every well-formed instruction word. -/

namespace Sys2Proof

/-! ## A word is its three fields (R91) -/

theorem word_eq_fields (w : Word) :
    w = BitVec.ofBool (fieldI w) ++ fieldOpcode w ++ fieldAddress w := by
  refine BitVec.eq_of_getLsbD_eq fun k hk => ?_
  rw [getLsbD_fields]
  split
  · next h => simp [fieldAddress, h]
  · split
    · next h₁ h₂ =>
      have hsum : 12 + (k - 12) = k := by omega
      have hlt : k - 12 < 3 := by omega
      simp [fieldOpcode, hlt, hsum]
    · have htop : k = 15 := by omega
      subst htop; simp [fieldI]

theorem fields_inj {i i' : BitVec 1} {op op' : BitVec 3} {a a' : Addr} :
    (i ++ op ++ a : Word) = i' ++ op' ++ a' ↔ i = i' ∧ op = op' ∧ a = a' := by
  refine ⟨fun h => ⟨?_, ?_, ?_⟩, fun ⟨hi, hop, ha⟩ => by rw [hi, hop, ha]⟩
  · refine BitVec.eq_of_getLsbD_eq fun k hk => ?_
    obtain rfl : k = 0 := by omega
    simpa using congrArg fieldI h
  · simpa using congrArg fieldOpcode h
  · simpa using congrArg fieldAddress h

/-- The table of R95 has a row for every opcode but 7. -/
theorem memoryReference_of_ne_seven {op : BitVec 3} (h : op ≠ 7#3) (i : BitVec 1) (a : Addr) :
    ∃ j : Instr, j.group = .memoryReference ∧ j.encode = i ++ op ++ a := by
  obtain ⟨m, rfl⟩ : ∃ m : AddrMode, m.bit = i := by
    obtain rfl | rfl : i = 0#1 ∨ i = 1#1 := by revert i; decide
    · exact ⟨.direct, rfl⟩
    · exact ⟨.indirect, rfl⟩
  have hop : op = 0#3 ∨ op = 1#3 ∨ op = 2#3 ∨ op = 3#3 ∨ op = 4#3 ∨ op = 5#3 ∨ op = 6#3 := by
    revert op; decide
  obtain rfl | rfl | rfl | rfl | rfl | rfl | rfl := hop
  · exact ⟨.and m a, rfl, rfl⟩
  · exact ⟨.add m a, rfl, rfl⟩
  · exact ⟨.lda m a, rfl, rfl⟩
  · exact ⟨.sta m a, rfl, rfl⟩
  · exact ⟨.bun m a, rfl, rfl⟩
  · exact ⟨.bsa m a, rfl, rfl⟩
  · exact ⟨.isz m a, rfl, rfl⟩

/-! ## The two opcode-7 groups (R96, R97) -/

/-- Bit 15 of the words of a group of opcode 7. A memory-reference word may have either; 0 stands there, and no lemma
reads it. -/
def Group.iBit : Group → BitVec 1
  | .memoryReference => 0
  | .registerReference => 0
  | .inputOutput => 1

/-- The table of a group's operations by select bit; a memory-reference word selects none. -/
def Group.operations : Group → List (Nat × Instr)
  | .memoryReference => []
  | .registerReference => registerReferenceTable
  | .inputOutput => inputOutputTable

theorem Group.iBit_inj {g g' : Group} (hg : g ≠ .memoryReference) (hg' : g' ≠ .memoryReference) :
    g.iBit = g'.iBit ↔ g = g' := by
  have distinct : ∀ g g' : Group, g ≠ .memoryReference → g' ≠ .memoryReference → (g.iBit = g'.iBit ↔ g = g') := by
    intro g g'; cases g <;> cases g' <;> decide
  exact distinct g g' hg hg'

/-- A word of opcode 7 belongs to one of the two groups. -/
theorem exists_group_of_iBit (i : BitVec 1) : ∃ g : Group, g ≠ .memoryReference ∧ i = g.iBit := by
  obtain rfl | rfl : i = 0#1 ∨ i = 1#1 := by revert i; decide
  · exact ⟨.registerReference, by decide, rfl⟩
  · exact ⟨.inputOutput, by decide, rfl⟩

/-- The second arm of R94, for both groups at once. -/
theorem decodeWord_opcode7 {g : Group} (hg : g ≠ .memoryReference) (m : Addr) :
    decodeWord (g.iBit ++ 7#3 ++ m) = ⟨g, selected m g.operations⟩ := by
  cases g with
  | memoryReference => exact absurd rfl hg
  | registerReference => exact decodeWord_registerReference m
  | inputOutput => exact decodeWord_inputOutput m

/-- The canonical word of an operation, for both groups at once. -/
theorem encode_operation {i : Instr} (h : i.group ≠ .memoryReference) :
    i.encode = i.group.iBit ++ 7#3 ++ BitVec.twoPow 12 i.selectBit := by
  cases hg : i.group with
  | memoryReference => exact absurd hg h
  | registerReference => exact (registerReference_row hg).2
  | inputOutput => exact (inputOutput_row hg).2

/-- The rows of a group's table are its operations, each at its select bit. -/
theorem mem_operations {g : Group} (hg : g ≠ .memoryReference) {k : Nat} {i : Instr} :
    (k, i) ∈ g.operations ↔ i.group = g ∧ k = i.selectBit := by
  have rows : ∀ g : Group, ∀ p ∈ g.operations, p.2.group = g ∧ p.1 = p.2.selectBit := by
    intro g; cases g <;> decide
  refine ⟨fun h => rows g _ h, ?_⟩
  rintro ⟨rfl, rfl⟩
  cases hi : i.group with
  | memoryReference => exact absurd hi hg
  | registerReference => exact (registerReference_row hi).1
  | inputOutput => exact (inputOutput_row hi).1

/-- Within a group of opcode 7 the select bit tells the operation. -/
theorem selectBit_inj {i j : Instr} (hi : i.group ≠ .memoryReference) (hg : i.group = j.group)
    (hbit : i.selectBit = j.selectBit) : i = j := by
  have distinct : ∀ g : Group, (g.operations.map Prod.fst).Nodup := by intro g; cases g <;> decide
  have hrow : (i.selectBit, i) ∈ i.group.operations := (mem_operations hi).2 ⟨rfl, rfl⟩
  have hrow' : (j.selectBit, j) ∈ i.group.operations := (mem_operations hi).2 ⟨hg.symm, rfl⟩
  exact congrArg Prod.snd (List.inj_on_of_nodup_map (distinct i.group) hrow hrow' hbit)

/-! ## What a table selects -/

theorem mem_selected {m : Addr} {table : List (Nat × Instr)} {i : Instr} :
    i ∈ selected m table ↔ ∃ k, (k, i) ∈ table ∧ m.getLsbD k = true := by
  induction table with
  | nil => simp [selected]
  | cons p rest ih =>
    obtain ⟨k, j⟩ := p
    cases hk : m.getLsbD k with
    | false =>
      simp only [selected, hk, Bool.false_eq_true, if_false, ih, List.mem_cons, Prod.mk.injEq]
      refine exists_congr fun k' => ⟨fun ⟨h, hb⟩ => ⟨.inr h, hb⟩, ?_⟩
      rintro ⟨⟨rfl, -⟩ | h, hb⟩
      · simp [hk] at hb
      · exact ⟨h, hb⟩
    | true =>
      simp only [selected, hk, if_true, List.mem_cons, ih, Prod.mk.injEq]
      constructor
      · rintro (rfl | ⟨k', h, hb⟩)
        · exact ⟨k, .inl ⟨rfl, rfl⟩, hk⟩
        · exact ⟨k', .inr h, hb⟩
      · rintro ⟨k', ⟨-, rfl⟩ | h, hb⟩
        · exact .inl rfl
        · exact .inr ⟨k', h, hb⟩

/-- A group's table selects the operations of the group whose select bit is 1. -/
theorem mem_selected_operations {g : Group} (hg : g ≠ .memoryReference) {m : Addr} {i : Instr} :
    i ∈ selected m g.operations ↔ i.group = g ∧ m.getLsbD i.selectBit = true := by
  simp only [mem_selected, mem_operations hg]
  exact ⟨fun ⟨k, ⟨hi, hk⟩, hb⟩ => ⟨hi, hk ▸ hb⟩, fun ⟨hi, hb⟩ => ⟨_, ⟨hi, rfl⟩, hb⟩⟩

theorem selected_sublist (m : Addr) (table : List (Nat × Instr)) :
    (selected m table).Sublist (table.map Prod.snd) := by
  induction table with
  | nil => exact List.Sublist.slnil
  | cons p rest ih =>
    obtain ⟨k, i⟩ := p
    simp only [selected, List.map_cons]
    split
    · exact ih.cons_cons i
    · exact ih.cons i

/-- What a table selects depends on its select bits alone. -/
theorem selected_congr {m n : Addr} {table : List (Nat × Instr)}
    (h : ∀ p ∈ table, m.getLsbD p.1 = n.getLsbD p.1) : selected m table = selected n table := by
  induction table with
  | nil => rfl
  | cons p rest ih =>
    obtain ⟨hp, hrest⟩ := List.forall_mem_cons.1 h
    simp only [selected, hp, ih hrest]

/-! ## The well-formed words -/

/-- The order of R185 and R210: the select bit of `i` lies above that of `j`. -/
abbrev PerformedBefore : Instr → Instr → Prop := InvImage (· > ·) Instr.selectBit

theorem selectBitsFall_iff {bound : Nat} {ops : List Instr} :
    selectBitsFall bound ops = true ↔ (∀ i ∈ ops, i.selectBit < bound) ∧ ops.Pairwise PerformedBefore := by
  induction ops generalizing bound with
  | nil => simp [selectBitsFall]
  | cons i rest ih =>
    simp only [selectBitsFall, Bool.and_eq_true, decide_eq_true_eq, ih, List.forall_mem_cons, List.pairwise_cons,
      InvImage]
    constructor
    · rintro ⟨hi, hrest, hfall⟩
      exact ⟨⟨hi, fun j hj => (hrest j hj).trans hi⟩, hrest, hfall⟩
    · rintro ⟨⟨hi, -⟩, hrest, hfall⟩
      exact ⟨hi, hrest, hfall⟩

theorem wellFormed_memoryReference {ops : List Instr} :
    InstrWord.wellFormed ⟨.memoryReference, ops⟩ = true ↔ ∃ i : Instr, i.group = .memoryReference ∧ ops = [i] := by
  simp only [InstrWord.wellFormed, Bool.and_eq_true, List.all_eq_true, decide_eq_true_eq, List.length_eq_one_iff]
  constructor
  · rintro ⟨hgroup, i, rfl⟩
    exact ⟨i, hgroup i (by simp), rfl⟩
  · rintro ⟨i, hi, rfl⟩
    exact ⟨by simpa using hi, i, rfl⟩

theorem wellFormed_opcode7 {g : Group} (hg : g ≠ .memoryReference) {ops : List Instr} :
    InstrWord.wellFormed ⟨g, ops⟩ = true ↔ (∀ i ∈ ops, i.group = g) ∧ ops.Pairwise PerformedBefore := by
  have hfall : selectBitsFall 12 ops = true ↔ ops.Pairwise PerformedBefore :=
    selectBitsFall_iff.trans (and_iff_right fun i _ => i.selectBit_lt)
  cases g with
  | memoryReference => exact absurd rfl hg
  | registerReference => simp [InstrWord.wellFormed, hfall]
  | inputOutput => simp [InstrWord.wellFormed, hfall]

theorem wellFormed_selected {g : Group} (hg : g ≠ .memoryReference) (m : Addr) :
    InstrWord.wellFormed ⟨g, selected m g.operations⟩ = true := by
  have falls : ∀ g : Group, (g.operations.map Prod.snd).Pairwise PerformedBefore := by
    intro g; cases g <;> simp [Group.operations, registerReferenceTable, inputOutputTable, InvImage, Instr.selectBit]
  exact (wellFormed_opcode7 hg).2
    ⟨fun i hi => ((mem_selected_operations hg).1 hi).1, (falls g).sublist (selected_sublist m _)⟩

/-! ## The select bits of a list of operations -/

/-- The address field with the select bit of every operation of the list set. -/
def selectMask (ops : List Instr) : Addr := ops.foldr (fun i acc => BitVec.twoPow 12 i.selectBit ||| acc) 0

theorem selectMask_getLsbD {ops : List Instr} {k : Nat} :
    (selectMask ops).getLsbD k = true ↔ ∃ i ∈ ops, i.selectBit = k := by
  induction ops with
  | nil => simp [selectMask]
  | cons i rest ih =>
    have hi := i.selectBit_lt
    simp only [selectMask, List.foldr_cons, BitVec.getLsbD_or, Bool.or_eq_true, BitVec.getLsbD_twoPow, hi, decide_true,
      Bool.true_and, decide_eq_true_eq, List.exists_mem_cons_iff]
    exact or_congr_right ih

/-- The word of operations of one group is the group's bits over their select bits (R98, R99). -/
theorem encode_operations {g : Group} (hg : g ≠ .memoryReference) {ops : List Instr} (hops : ∀ i ∈ ops, i.group = g) :
    InstrWord.encode ⟨g, ops⟩ = g.iBit ++ 7#3 ++ selectMask ops := by
  induction ops with
  | nil =>
    cases g with
    | memoryReference => exact absurd rfl hg
    | registerReference => rfl
    | inputOutput => rfl
  | cons i rest ih =>
    obtain ⟨rfl, hrest⟩ := List.forall_mem_cons.1 hops
    calc InstrWord.encode ⟨i.group, i :: rest⟩ = i.encode ||| InstrWord.encode ⟨i.group, rest⟩ := rfl
      _ = (i.group.iBit ++ 7#3 ++ BitVec.twoPow 12 i.selectBit) ||| (i.group.iBit ++ 7#3 ++ selectMask rest) := by
        rw [encode_operation hg, ih hrest]
      _ = i.group.iBit ++ 7#3 ++ selectMask (i :: rest) := by
        rw [BitVec.or_append, BitVec.or_self]; rfl

/-- Selecting keeps of `m` the bits the group's table has a row for. -/
theorem selectMask_selected_getLsbD {g : Group} (hg : g ≠ .memoryReference) (m : Addr) (k : Nat) :
    (selectMask (selected m g.operations)).getLsbD k = (m.getLsbD k && decide (k ∈ g.operations.map Prod.fst)) := by
  rw [Bool.eq_iff_iff]
  simp only [selectMask_getLsbD, mem_selected_operations hg, Bool.and_eq_true, decide_eq_true_eq, List.mem_map]
  constructor
  · rintro ⟨i, ⟨hi, hb⟩, rfl⟩
    exact ⟨hb, (_, i), (mem_operations hg).2 ⟨hi, rfl⟩, rfl⟩
  · rintro ⟨hb, ⟨k, i⟩, hrow, rfl⟩
    obtain ⟨hi, rfl⟩ := (mem_operations hg).1 hrow
    exact ⟨i, ⟨hi, hb⟩, rfl⟩

theorem selectMask_registerReference (m : Addr) : selectMask (selected m registerReferenceTable) = m := by
  have rows : ∀ k < 12, decide (k ∈ Group.registerReference.operations.map Prod.fst) = true := by decide
  refine BitVec.eq_of_getLsbD_eq fun k hk => ?_
  rw [← Group.operations, selectMask_selected_getLsbD (by decide), rows k hk, Bool.and_true]

theorem selectMask_inputOutput (m : Addr) : selectMask (selected m inputOutputTable) = m &&& 0xFC0 := by
  have rows : ∀ k < 12, decide (k ∈ Group.inputOutput.operations.map Prod.fst) = (0xFC0 : Addr).getLsbD k := by decide
  refine BitVec.eq_of_getLsbD_eq fun k hk => ?_
  rw [← Group.operations, selectMask_selected_getLsbD (by decide), rows k hk, BitVec.getLsbD_and]

/-! ## What a word performs -/

theorem encode_of_one (g : Group) (i : Instr) (h : g.base = 0) : InstrWord.encode ⟨g, [i]⟩ = i.encode := by
  simp [InstrWord.encode, h]

/-- A word performs a memory-reference instruction exactly when it is that instruction's word. -/
theorem mem_decodeWord_memoryReference {i : Instr} (hi : i.group = .memoryReference) (w : Word) :
    i ∈ (decodeWord w).ops ↔ i.encode = w := by
  constructor
  · intro h
    rw [word_eq_fields w] at h ⊢
    by_cases hop : fieldOpcode w = 7#3
    · obtain ⟨g, hg, hb⟩ := exists_group_of_iBit (BitVec.ofBool (fieldI w))
      rw [hop, hb, decodeWord_opcode7 hg] at h
      exact absurd (((mem_selected_operations hg).1 h).1.symm.trans hi) hg
    · obtain ⟨j, -, hword⟩ := memoryReference_of_ne_seven hop (BitVec.ofBool (fieldI w)) (fieldAddress w)
      rw [← hword, decodeWord_encode] at h
      rw [List.mem_singleton.1 h, hword]
  · rintro rfl
    rw [decodeWord_encode]
    exact List.mem_singleton_self i

/-- A word performs an operation of opcode 7 exactly when its fields are the group's and the select bit is 1. -/
theorem mem_decodeWord_operation {i : Instr} (hi : i.group ≠ .memoryReference) (b : BitVec 1) (op : BitVec 3) (m : Addr) :
    i ∈ (decodeWord (b ++ op ++ m)).ops ↔ b = i.group.iBit ∧ op = 7#3 ∧ m.getLsbD i.selectBit = true := by
  by_cases hop : op = 7#3
  · obtain ⟨g, hg, rfl⟩ := exists_group_of_iBit b
    rw [hop, decodeWord_opcode7 hg, mem_selected_operations hg, Group.iBit_inj hg hi]
    exact ⟨fun ⟨h, hb⟩ => ⟨h.symm, rfl, hb⟩, fun ⟨h, _, hb⟩ => ⟨h.symm, hb⟩⟩
  · obtain ⟨j, hj, hword⟩ := memoryReference_of_ne_seven hop b m
    rw [← hword, decodeWord_encode]
    have hne : i ≠ j := fun h => hi (h ▸ hj)
    exact iff_of_false (fun h => hne (List.mem_singleton.1 h)) (fun h => hop h.2.1)

/-- An operation's row of the opcode table: all of I and the opcode are compared, and of the address field the select
bit. -/
theorem operation_row {i : Instr} (h : i.group ≠ .memoryReference) :
    i.tableMask = 1#1 ++ 7#3 ++ BitVec.twoPow 12 i.selectBit ∧ i.tableMatch = i.encode := by
  cases hg : i.group with
  | memoryReference => exact absurd hg h
  | registerReference => cases i <;> cases hg <;> decide
  | inputOutput => cases i <;> cases hg <;> decide

theorem masked_eq_match_iff {i : Instr} (hi : i.group ≠ .memoryReference) (b : BitVec 1) (op : BitVec 3) (m : Addr) :
    (b ++ op ++ m : Word) &&& i.tableMask = i.tableMatch ↔
      b = i.group.iBit ∧ op = 7#3 ∧ m.getLsbD i.selectBit = true := by
  obtain ⟨hmask, hmatch⟩ := operation_row hi
  have hb : b &&& 1#1 = b := BitVec.and_allOnes
  have hop : op &&& 7#3 = op := BitVec.and_allOnes
  have hnonzero : (0#12 = BitVec.twoPow 12 i.selectBit) ↔ False := by
    refine iff_false_intro fun h => ?_
    have hbit := congrArg (BitVec.getLsbD · i.selectBit) h
    simp [i.selectBit_lt] at hbit
  rw [hmask, hmatch, encode_operation hi, BitVec.and_append, BitVec.and_append, fields_inj, hb, hop, BitVec.and_twoPow]
  cases m.getLsbD i.selectBit <;> simp [hnonzero]

theorem encode_masked (i : Instr) : i.encode &&& i.tableMask = i.tableMatch := by
  cases i with
  | and m a => exact Laws.MatchesTable.and m a
  | add m a => exact Laws.MatchesTable.add m a
  | lda m a => exact Laws.MatchesTable.lda m a
  | sta m a => exact Laws.MatchesTable.sta m a
  | bun m a => exact Laws.MatchesTable.bun m a
  | bsa m a => exact Laws.MatchesTable.bsa m a
  | isz m a => exact Laws.MatchesTable.isz m a
  | _ => rfl

/-! ## The statements -/

/-- Settles O4. A memory-reference word is `decodeWord_encode`. An opcode-7 word decodes to a list with the same
operations, and both lists fall in their select bits, so they are the same list. -/
theorem decodeOfEncode : Obligations.DecodeOfEncode := by
  rintro ⟨g, ops⟩ hwf
  by_cases hg : g = .memoryReference
  · subst hg
    obtain ⟨i, hi, rfl⟩ := wellFormed_memoryReference.1 hwf
    rw [encode_of_one _ _ rfl, decodeWord_encode, hi]
  · obtain ⟨hops, hfall⟩ := (wellFormed_opcode7 hg).1 hwf
    obtain ⟨-, hfall'⟩ := (wellFormed_opcode7 hg).1 (wellFormed_selected hg (selectMask ops))
    have hmem (i : Instr) : i ∈ selected (selectMask ops) g.operations ↔ i ∈ ops := by
      rw [mem_selected_operations hg, selectMask_getLsbD]
      constructor
      · rintro ⟨hi, j, hj, hbit⟩
        exact selectBit_inj (hops j hj ▸ hg) ((hops j hj).trans hi.symm) hbit ▸ hj
      · exact fun h => ⟨hops i h, i, h, rfl⟩
    rw [encode_operations hg hops, decodeWord_opcode7 hg, hfall'.eq_of_mem_iff hfall hmem]

/-- Settles O5: the select bits of what a word selects are the word's own, but for those the group has no row for. -/
theorem encodeOfDecode : Obligations.EncodeOfDecode := by
  intro w
  rw [word_eq_fields w]
  generalize BitVec.ofBool (fieldI w) = b, fieldOpcode w = op, fieldAddress w = m
  by_cases hop : op = 7#3
  · obtain ⟨g, hg, rfl⟩ := exists_group_of_iBit b
    subst hop
    have hops : ∀ i ∈ selected m g.operations, i.group = g := fun i hi => ((mem_selected_operations hg).1 hi).1
    rw [decodeWord_opcode7 hg, encode_operations hg hops]
    cases g with
    | memoryReference => exact absurd rfl hg
    | registerReference => exact congrArg _ (selectMask_registerReference m)
    | inputOutput =>
      have hlow : (0xFFC0 : Word) = 1#1 ++ 7#3 ++ 0xFC0#12 := by decide
      rw [if_pos rfl, hlow, BitVec.and_append]
      exact congrArg _ (selectMask_inputOutput m)
  · obtain ⟨i, hi, hword⟩ := memoryReference_of_ne_seven hop b m
    rw [← hword, decodeWord_encode, hi, encode_of_one _ _ rfl]
    rfl

/-- Settles O6: for a memory-reference row both sides say that the word is the instruction's, and for an opcode-7 row
both say that I, the opcode and the select bit are the row's. -/
theorem performedIffRowSelected : Obligations.PerformedIffRowSelected := by
  intro w i
  by_cases hi : i.group = .memoryReference
  · rw [mem_decodeWord_memoryReference hi]
    exact ⟨fun h => ⟨h ▸ encode_masked i, fun _ => h⟩, fun h => h.2 hi⟩
  · rw [word_eq_fields w, mem_decodeWord_operation hi, masked_eq_match_iff hi]
    exact ⟨fun h => ⟨h, fun h' => absurd h' hi⟩, fun h => h.1⟩

/-- Settles O3: the one instruction of a memory-reference word, and a selection from a table whose select bits fall. -/
theorem everyWordDecodesWellFormed : Obligations.EveryWordDecodesWellFormed := by
  intro w
  rw [word_eq_fields w]
  by_cases hop : fieldOpcode w = 7#3
  · obtain ⟨g, hg, hb⟩ := exists_group_of_iBit (BitVec.ofBool (fieldI w))
    rw [hop, hb, decodeWord_opcode7 hg]
    exact wellFormed_selected hg _
  · obtain ⟨i, hi, hword⟩ := memoryReference_of_ne_seven hop (BitVec.ofBool (fieldI w)) (fieldAddress w)
    rw [← hword, decodeWord_encode, hi]
    exact wellFormed_memoryReference.2 ⟨i, hi, rfl⟩

theorem inputOutputWord_eq (m : Addr) : (0xF#4 ++ m : Word) = 1#1 ++ 7#3 ++ m := rfl

theorem registerReferenceWord_eq (m : Addr) : (0x7#4 ++ m : Word) = 0#1 ++ 7#3 ++ m := rfl

/-- Settles O7: every select bit of the table of R97 lies in bits 11 to 6. -/
theorem inputOutputLowBitsIgnored : Obligations.InputOutputLowBitsIgnored := by
  intro m x y
  have rows : ∀ p ∈ inputOutputTable, 6 ≤ p.1 := by decide
  have hword (z : BitVec 6) : (0xF#4 ++ m ++ z : Word) = 1#1 ++ 7#3 ++ (m ++ z) := BitVec.append_assoc
  rw [hword x, hword y, decodeWord_inputOutput, decodeWord_inputOutput]
  refine congrArg _ (selected_congr fun p hp => ?_)
  have hhigh : ¬ p.1 < 6 := by have := rows p hp; omega
  have hbit (z : BitVec 6) : BitVec.getLsbD (w := 12) (m ++ z) p.1 = m.getLsbD (p.1 - 6) :=
    BitVec.getLsbD_append.trans (if_neg hhigh)
  rw [hbit x, hbit y]

end Sys2Proof

/-! PROOFS. The rules of the remaining instructions, one each, what an instruction does to each piece of state, and the
statements of 41_memory_reference.md, 42_register_reference.md and 43_input_output.md about single instructions. -/

namespace Sys2Proof

open Machine

/-! ## The remaining instructions, once each -/

theorem exec_and (m : AddrMode) (a : Addr) (s : State) :
    exec (.and m a) s = .next { s.loadOperand m a with AC := s.AC &&& s.M.read (effectiveAddress m a s) } := rfl

theorem exec_bun (m : AddrMode) (a : Addr) (s : State) :
    exec (.bun m a) s = .next { s.withEA m a with PC := effectiveAddress m a s } := rfl

theorem exec_bsa (m : AddrMode) (a : Addr) (s : State) :
    exec (.bsa m a) s = .next { (s.withEA m a).storeAtAR (wordOf s.PC) with
      PC := effectiveAddress m a s + 1
      AR := effectiveAddress m a s + 1 } := rfl

theorem exec_isz (m : AddrMode) (a : Addr) (s : State) :
    exec (.isz m a) s = .next
      (({ s.loadOperand m a with DR := s.M.read (effectiveAddress m a s) + 1 }.storeAtAR
        (s.M.read (effectiveAddress m a s) + 1)).skipIf (isZero (s.M.read (effectiveAddress m a s) + 1))) := rfl

theorem exec_inc (s : State) : exec .inc s = .next { s with AC := s.AC + 1 } := rfl

theorem exec_spa (s : State) : exec .spa s = .next (s.skipIf (!highBit s.AC)) := rfl

theorem exec_sna (s : State) : exec .sna s = .next (s.skipIf (highBit s.AC)) := rfl

theorem exec_sza (s : State) : exec .sza s = .next (s.skipIf (isZero s.AC)) := rfl

theorem exec_sze (s : State) : exec .sze s = .next (s.skipIf (!s.E)) := rfl

theorem exec_hlt (s : State) : exec .hlt s = .next { s with S := false } := rfl

theorem exec_ski (s : State) : exec .ski s = .next (s.skipIf s.FGI) := rfl

theorem exec_sko (s : State) : exec .sko s = .next (s.skipIf s.FGO) := rfl

theorem exec_ion (s : State) : exec .ion s = .next { s with IEN := true } := rfl

theorem exec_iof (s : State) : exec .iof s = .next { s with IEN := false } := rfl

/-! ## The tests of the skips, and the width of a stored address -/

/-- A skip on a test `c` is the skip of the statement's proposition, where the two agree. -/
theorem skipIf_eq (s : State) {c : Bool} {p : Prop} [Decidable p] (h : c = true ↔ p) :
    s.skipIf c = { s with PC := if p then s.PC + 1 else s.PC } := by
  simp only [State.skipIf, h]

theorem wordOf_eq (a : Addr) : wordOf a = 0#4 ++ a := by
  refine BitVec.eq_of_getLsbD_eq fun k hk => ?_
  have happend : BitVec.getLsbD (w := 16) (0#4 ++ a) k = if k < 12 then a.getLsbD k else (0#4).getLsbD (k - 12) :=
    BitVec.getLsbD_append
  rw [happend, wordOf, BitVec.getLsbD_setWidth]
  split
  · simp [hk]
  · next h => simp [BitVec.getLsbD_of_ge a k (by omega)]

/-- An incremented word is zero exactly when it was 0xFFFF (R146). -/
theorem isZero_succ_iff (x : Word) : isZero (x + 1) = true ↔ x = 0xFFFF := by
  rw [isZero_iff]
  bv_omega

/-! ## The statements -/

/-- Settles O8: the two modes are the two equations of the effective address, which T3 puts in AR (R124). -/
theorem effectiveAddressOfBothModes : Obligations.EffectiveAddressOfBothModes := fun a s =>
  ⟨effectiveAddress_direct a s, effectiveAddress_indirect a s, fun _ => rfl⟩

/-- Settles O9: DR is the operand word after the operand read, and AC is its AND with it (R140). -/
theorem andResult : Obligations.AndResult := fun m a s => by
  rw [exec_and, loadOperand_eq]

/-- Settles O13: BUN's rule is the statement (R144). -/
theorem bunResult : Obligations.BunResult := exec_bun

/-- Settles O14: the state after BSA is a store of the return address at the effective address, so the laws of a read
after a write give its memory (R145). -/
theorem bsaResult : Obligations.BsaResult := fun m a s =>
  ⟨_, exec_bsa m a s, rfl, (Memory.read_write_same s.M (effectiveAddress m a s) _).trans (wordOf_eq s.PC),
   fun _ hb => Memory.read_write_other s.M _ hb⟩

/-- Settles O15: ISZ is a store of the incremented word and a skip, and the incremented word is zero exactly from 0xFFFF
(`isZero_succ_iff`, R146). -/
theorem iszResult : Obligations.IszResult := fun m a s => by
  refine ⟨_, exec_isz m a s, ?_, Memory.read_write_same s.M (effectiveAddress m a s) _,
    fun _ hb => Memory.read_write_other s.M _ hb⟩
  rw [skipIf_eq _ (isZero_succ_iff _)]
  rfl

/-- Settles O18: INC's word is the sum modulo 65536 (R176). -/
theorem incResult : Obligations.IncResult := fun s => ⟨s.AC + 1, exec_inc s, BitVec.toNat_add s.AC 1⟩

/-- Settles O19: each of the four is a skip on its condition (R177 to R180). -/
theorem skipResults : Obligations.SkipResults := fun s =>
  ⟨by rw [exec_spa, skipIf_eq s (p := s.AC.getLsbD 15 = false) (by simp [highBit])],
   by rw [exec_sna, skipIf_eq s (p := s.AC.getLsbD 15 = true) (by simp [highBit])],
   by rw [exec_sza, skipIf_eq s (isZero_iff s.AC)],
   by rw [exec_sze, skipIf_eq s (p := s.E = false) (by simp)]⟩

/-- Settles O20: HLT's rule is the statement (R181). -/
theorem hltResult : Obligations.HltResult := exec_hlt

/-- Settles O24: a skip reads its flag and changes PC alone (R202, R203). -/
theorem flagSkipResults : Obligations.FlagSkipResults := fun s => ⟨exec_ski s, exec_sko s⟩

/-- Settles O25: ION's and IOF's rules are the statement (R204, R205). -/
theorem interruptEnableResults : Obligations.InterruptEnableResults := fun s => ⟨exec_ion s, exec_iof s⟩

/-- Settles O29: each instruction's rule names its next state (R221). -/
theorem everyInstructionCompletes : Obligations.EveryInstructionCompletes := by
  intro i s
  cases i <;> exact ⟨_, rfl⟩

/-! ## What an instruction changes (R44), one lemma for each piece of state

In each the listed instructions are the named cases, and the rule of every other instruction leaves the piece as it
was. -/

section Writers

variable {i : Instr} {s t : State} (h : exec i s = .next t)

include h

theorem exec_changes_AC (hne : t.AC ≠ s.AC) :
    (∃ m a, i = .and m a ∨ i = .add m a ∨ i = .lda m a) ∨
      i = .cla ∨ i = .cma ∨ i = .cir ∨ i = .cil ∨ i = .inc ∨ i = .inp := by
  cases i with
  | and m a | add m a | lda m a => exact .inl ⟨m, a, by simp⟩
  | cla | cma | cir | cil | inc | inp => simp
  | _ => cases h; exact absurd rfl hne

theorem exec_changes_E (hne : t.E ≠ s.E) : (∃ m a, i = .add m a) ∨ i = .cle ∨ i = .cme ∨ i = .cir ∨ i = .cil := by
  cases i with
  | add m a => exact .inl ⟨m, a, rfl⟩
  | cle | cme | cir | cil => simp
  | _ => cases h; exact absurd rfl hne

theorem exec_changes_PC (hne : t.PC ≠ s.PC) :
    (∃ m a, i = .bun m a ∨ i = .bsa m a ∨ i = .isz m a) ∨
      i = .spa ∨ i = .sna ∨ i = .sza ∨ i = .sze ∨ i = .ski ∨ i = .sko := by
  cases i with
  | bun m a | bsa m a | isz m a => exact .inl ⟨m, a, by simp⟩
  | spa | sna | sza | sze | ski | sko => simp
  | _ => cases h; exact absurd rfl hne

theorem exec_changes_M (hne : t.M ≠ s.M) : ∃ m a, i = .sta m a ∨ i = .bsa m a ∨ i = .isz m a := by
  cases i with
  | sta m a | bsa m a | isz m a => exact ⟨m, a, by simp⟩
  | _ => cases h; exact absurd rfl hne

theorem exec_changes_DR (hne : t.DR ≠ s.DR) :
    ∃ m a, i = .and m a ∨ i = .add m a ∨ i = .lda m a ∨ i = .isz m a := by
  cases i with
  | and m a | add m a | lda m a | isz m a => exact ⟨m, a, by simp⟩
  | _ => cases h; exact absurd rfl hne

theorem exec_changes_AR (hne : t.AR ≠ s.AR) : i.group = .memoryReference := by
  cases i with
  | and m a | add m a | lda m a | sta m a | bun m a | bsa m a | isz m a => rfl
  | _ => cases h; exact absurd rfl hne

theorem exec_changes_OUTR (hne : t.OUTR ≠ s.OUTR) : i = .out := by
  cases i with
  | out => rfl
  | _ => cases h; exact absurd rfl hne

theorem exec_changes_FGI (hne : t.FGI ≠ s.FGI) : i = .inp := by
  cases i with
  | inp => rfl
  | _ => cases h; exact absurd rfl hne

theorem exec_changes_FGO (hne : t.FGO ≠ s.FGO) : i = .out := by
  cases i with
  | out => rfl
  | _ => cases h; exact absurd rfl hne

theorem exec_changes_IEN (hne : t.IEN ≠ s.IEN) : i = .ion ∨ i = .iof := by
  cases i with
  | ion | iof => simp
  | _ => cases h; exact absurd rfl hne

theorem exec_changes_S (hne : t.S ≠ s.S) : i = .hlt := by
  cases i with
  | hlt => rfl
  | _ => cases h; exact absurd rfl hne

theorem exec_changes_hist (hne : t.hist ≠ s.hist) : i = .inp ∨ i = .out := by
  cases i with
  | inp | out => simp
  | _ => cases h; exact absurd rfl hne

/-- No instruction writes these. -/
theorem exec_keeps :
    t.IR = s.IR ∧ t.I = s.I ∧ t.R = s.R ∧ t.TR = s.TR ∧ t.INPR = s.INPR ∧ t.turns = s.turns := by
  cases i <;> cases h <;> exact ⟨rfl, rfl, rfl, rfl, rfl, rfl⟩

end Writers

/-- Settles O30: one lemma for each piece of state (R44). -/
theorem onlyTheListedInstructionsWrite : Obligations.OnlyTheListedInstructionsWrite := fun _ _ _ h =>
  ⟨exec_changes_AC h, exec_changes_E h, exec_changes_PC h, exec_changes_M h, exec_changes_DR h, exec_changes_AR h,
   exec_changes_OUTR h, exec_changes_FGI h, exec_changes_FGO h, exec_changes_IEN h, exec_changes_S h,
   exec_changes_hist h, exec_keeps h⟩

end Sys2Proof

/-! PROOFS. Words that perform several operations (spec/42_register_reference.md R185 to R187, spec/43_input_output.md
R210, R211): a word's instructions as one function of the state, the ring of E and AC, and the operations whose order does
not matter. -/

namespace Sys2Proof

open Machine

/-! ## A word's instructions as a function of the state -/

/-- The state one instruction leaves; that it has one is O29. -/
def perform (i : Instr) (s : State) : State := performIf true i s

/-- The state a word's instructions leave. -/
def performAll (ops : List Instr) (s : State) : State := ops.foldl (fun t i => perform i t) s

theorem exec_eq_perform (i : Instr) (s : State) : exec i s = .next (perform i s) := by
  obtain ⟨t, h⟩ := everyInstructionCompletes i s
  simp [perform, performIf, h]

theorem execAll_eq_performAll (ops : List Instr) (s : State) : execAll ops s = .next (performAll ops s) := by
  induction ops generalizing s with
  | nil => rfl
  | cons i rest ih => rw [execAll_cons_of_next (exec_eq_perform i s), ih]; rfl

/-- What every instruction of a list keeps, the list keeps. -/
theorem performAll_keeps {P : State → Prop} {ops : List Instr} (keeps : ∀ i ∈ ops, ∀ s, P s → P (perform i s))
    {s : State} (hs : P s) : P (performAll ops s) :=
  execAll_keeps (fun i hi s _ hs h => Host.Outcome.next.inj ((exec_eq_perform i s).symm.trans h) ▸ keeps i hi s hs)
    s _ hs (execAll_eq_performAll ops s)

/-- A table's selection performs each row whose select bit is 1, in the order of the table. -/
theorem execAll_selected (m : Addr) (table : List (Nat × Instr)) (s : State) :
    execAll (selected m table) s = .next (table.foldl (fun t row => performIf (m.getLsbD row.1) row.2 t) s) := by
  induction table generalizing s with
  | nil => rfl
  | cons row rest ih =>
    obtain ⟨k, i⟩ := row
    cases hk : m.getLsbD k with
    | false => simp [selected, hk, ih, performIf]
    | true => simp only [selected, hk, if_true, execAll_cons_of_next (exec_eq_perform i s), ih, List.foldl_cons, perform]

/-- Settles O32: the word selects from the table of R96, which `execAll_selected` performs row by row (R185). -/
theorem registerReferenceWordRuns : Obligations.RegisterReferenceWordRuns := by
  intro m s
  rw [registerReferenceWord_eq, decodeWord_registerReference, execAll_selected]
  rfl

/-- Settles O33: the word selects from the table of R97, which `execAll_selected` performs row by row (R210). -/
theorem inputOutputWordRuns : Obligations.InputOutputWordRuns := by
  intro m s
  rw [inputOutputWord_eq, decodeWord_inputOutput, execAll_selected]
  rfl

/-! ## The ring of E and AC (R174, R175) -/

/-- E and AC as one word of 17 bits, E at the top. -/
def ring (e : Bool) (x : Word) : BitVec 17 := BitVec.ofBool e ++ x

theorem ring_getLsbD (e : Bool) (x : Word) (k : Nat) :
    (ring e x).getLsbD k = if k < 16 then x.getLsbD k else decide (k = 16) && e := by
  have happend : (ring e x).getLsbD k = if k < 16 then x.getLsbD k else (BitVec.ofBool e).getLsbD (k - 16) :=
    BitVec.getLsbD_append
  have htop : ¬ k < 16 → (k - 16 = 0 ↔ k = 16) := by omega
  rw [happend, BitVec.getLsbD_ofBool]
  split
  · rfl
  · next h => simp only [htop h]

theorem ring_inj {e e' : Bool} {x x' : Word} : ring e x = ring e' x' ↔ e = e' ∧ x = x' := by
  refine ⟨fun h => ⟨?_, ?_⟩, fun ⟨he, hx⟩ => by rw [he, hx]⟩
  · have htop := congrArg (BitVec.getLsbD · 16) h
    simp only [ring_getLsbD] at htop
    simpa using htop
  · refine BitVec.eq_of_getLsbD_eq fun k hk => ?_
    simpa [ring_getLsbD, hk] using congrArg (BitVec.getLsbD · k) h

/-- CIR moves every bit of the ring down by one place, and the lowest to the top. -/
theorem ring_rotatedRight (e : Bool) (x : Word) {k : Nat} (hk : k < 17) :
    (ring (x.getLsbD 0) (rotatedRight e x)).getLsbD k = (ring e x).getLsbD ((k + 1) % 17) := by
  simp only [ring_getLsbD, rotatedRight_getLsbD]
  obtain h | rfl | rfl : k < 15 ∨ k = 15 ∨ k = 16 := by omega
  · have hmod : (k + 1) % 17 = k + 1 := Nat.mod_eq_of_lt (by omega)
    have h16 : k < 16 := by omega
    have h16' : k + 1 < 16 := by omega
    simp [hmod, h, h16, h16']
  · simp
  · simp

/-- After `n` CIRs every bit of the ring stands `n` places further down. -/
theorem execAll_replicate_cir (n : Nat) (s : State) :
    ∃ e x, execAll (List.replicate n .cir) s = .next { s with AC := x, E := e } ∧
      ∀ k, k < 17 → (ring e x).getLsbD k = (ring s.E s.AC).getLsbD ((k + n) % 17) := by
  induction n generalizing s with
  | zero => exact ⟨s.E, s.AC, rfl, fun k hk => by rw [Nat.add_zero, Nat.mod_eq_of_lt hk]⟩
  | succ n ih =>
    obtain ⟨e, x, hrun, hring⟩ := ih { s with AC := rotatedRight s.E s.AC, E := s.AC.getLsbD 0 }
    refine ⟨e, x, (execAll_cons_of_next (exec_cir s) _).trans hrun, fun k hk => ?_⟩
    rw [hring k hk, ring_rotatedRight _ _ (Nat.mod_lt _ (by decide)), Nat.mod_add_mod, Nat.add_assoc]

theorem rotatedLeft_rotatedRight (e : Bool) (x : Word) : rotatedLeft (x.getLsbD 0) (rotatedRight e x) = x := by
  refine BitVec.eq_of_getLsbD_eq fun k hk => ?_
  cases k with
  | zero => exact rotatedLeft_getLsbD_zero _ _
  | succ k => rw [rotatedLeft_getLsbD_succ _ _ (by omega), rotatedRight_getLsbD_of_lt _ _ (by omega)]

theorem rotatedRight_rotatedLeft (e : Bool) (x : Word) : rotatedRight (x.getLsbD 15) (rotatedLeft e x) = x := by
  refine BitVec.eq_of_getLsbD_eq fun k hk => ?_
  obtain h | rfl : k < 15 ∨ k = 15 := by omega
  · rw [rotatedRight_getLsbD_of_lt _ _ h, rotatedLeft_getLsbD_succ _ _ h]
  · exact rotatedRight_getLsbD_top _ _

theorem execAll_cir_cil (s : State) : execAll [.cir, .cil] s = .next s := by
  rw [execAll_cons_of_next (exec_cir s), execAll_cons_of_next (exec_cil _), execAll_nil]
  simp only [rotatedLeft_rotatedRight, rotatedRight_getLsbD_top]

theorem execAll_cil_cir (s : State) : execAll [.cil, .cir] s = .next s := by
  rw [execAll_cons_of_next (exec_cil s), execAll_cons_of_next (exec_cir _), execAll_nil]
  simp only [rotatedRight_rotatedLeft, rotatedLeft_getLsbD_zero]

/-- Settles O21: seventeen CIRs bring every bit of the ring back to its place; sixteen do not, in the state after reset
with AC = 1, where they leave E = 0 but AC = 2. -/
theorem rotationRing : Obligations.RotationRing := by
  refine ⟨fun s => ?_, ⟨{ State.reset with AC := 1 }, fun h => ?_⟩, execAll_cir_cil, execAll_cil_cir⟩
  · obtain ⟨e, x, hrun, hring⟩ := execAll_replicate_cir 17 s
    have hsame : ring e x = ring s.E s.AC := BitVec.eq_of_getLsbD_eq fun k hk => by
      rw [hring k hk, Nat.add_mod_right, Nat.mod_eq_of_lt hk]
    obtain ⟨rfl, rfl⟩ := ring_inj.1 hsame
    exact hrun
  · rw [execAll_eq_performAll] at h
    exact absurd (congrArg State.AC (Host.Outcome.next.inj h)) (by decide)

/-! ## The words of R187 -/

/-- A word runs as the list of operations it decodes to. -/
theorem execAll_decodeWord {w : Word} {ops : List Instr} {s t : State} (hw : (decodeWord w).ops = ops)
    (h : execAll ops s = .next t) : execAll (decodeWord w).ops s = .next t := hw ▸ h

theorem rotatedRight_false (x : Word) : rotatedRight false x = x >>> 1 := by
  refine BitVec.eq_of_getLsbD_eq fun k hk => ?_
  rw [rotatedRight_getLsbD, BitVec.getLsbD_ushiftRight, Nat.add_comm 1 k]
  obtain h | rfl : k < 15 ∨ k = 15 := by omega
  · simp [h]
  · simp

theorem rotatedLeft_false (x : Word) : rotatedLeft false x = x <<< 1 := by
  refine BitVec.eq_of_getLsbD_eq fun k hk => ?_
  rw [rotatedLeft_getLsbD, BitVec.getLsbD_shiftLeft]
  cases k with
  | zero => rfl
  | succ k => simp

theorem addr_succ_succ (a : Addr) : a + 1 + 1 = a + 2 := BitVec.add_assoc a 1 1

theorem not_zero_word : ~~~(0 : Word) = 0xFFFF := by decide

theorem execAll_cla_cma_inc (s : State) : execAll [.cla, .cma, .inc] s = .next { s with AC := 0 } := by
  have hwrap : ~~~(0 : Word) + 1 = 0 := by decide
  simp only [execAll_cons_of_next (exec_cla _), execAll_cons_of_next (exec_cma _), execAll_cons_of_next (exec_inc _),
    execAll_nil, hwrap]

/-- SPA then SNA: exactly one of the two skips. -/
theorem execAll_spa_sna (s : State) : execAll [.spa, .sna] s = .next { s with PC := s.PC + 1 } := by
  rw [execAll_cons_of_next (exec_spa s), execAll_cons_of_next (exec_sna _), execAll_nil]
  cases h : highBit s.AC <;> simp [State.skipIf, h]

/-- SPA then SZA: zero is not negative, so both skip on it. -/
theorem execAll_spa_sza (s : State) :
    execAll [.spa, .sza] s = .next { s with
      PC := if s.AC = 0 then s.PC + 2 else if highBit s.AC = false then s.PC + 1 else s.PC } := by
  rw [execAll_cons_of_next (exec_spa s), execAll_cons_of_next (exec_sza _), execAll_nil, State.skipIf_AC,
    skipIf_eq _ (isZero_iff s.AC), State.skipIf_PC]
  by_cases hz : s.AC = 0
  · have hhigh : highBit s.AC = false := by rw [hz]; rfl
    simp only [if_pos hz, hhigh, Bool.not_false, if_true, addr_succ_succ]
    rfl
  · simp only [if_neg hz]
    cases highBit s.AC <;> rfl

/-- All twelve operations. CLA to CME leave AC of sixteen ones and E = 1, which CIR and CIL give back; INC makes AC 0, so
one of SPA and SNA skips, SZA skips and SZE does not. -/
theorem execAll_all_registerReference (s : State) :
    execAll [.cla, .cle, .cma, .cme, .cir, .cil, .inc, .spa, .sna, .sza, .sze, .hlt] s =
      .next { s with AC := 0, E := true, PC := s.PC + 2, S := false } := by
  have hones : execAll [.cla, .cle, .cma, .cme] s = .next { s with AC := 0xFFFF, E := true } := by
    rw [← not_zero_word]; rfl
  have hwrap : (0xFFFF : Word) + 1 = 0 := by decide
  calc execAll ([.cla, .cle, .cma, .cme] ++ ([.cir, .cil] ++ [.inc, .spa, .sna, .sza, .sze, .hlt])) s
      = execAll [.inc, .spa, .sna, .sza, .sze, .hlt] { s with AC := 0xFFFF, E := true } := by
        rw [execAll_append_of_next hones, execAll_append_of_next (execAll_cir_cil _)]
    _ = execAll ([.spa, .sna] ++ [.sza, .sze, .hlt]) { s with AC := 0, E := true } := by
        rw [execAll_cons_of_next (exec_inc _), hwrap]; rfl
    _ = execAll [.sza, .sze, .hlt] { s with AC := 0, E := true, PC := s.PC + 1 } :=
        execAll_append_of_next (execAll_spa_sna _) _
    _ = .next { s with AC := 0, E := true, PC := s.PC + 1 + 1, S := false } := rfl
    _ = _ := by rw [addr_succ_succ]

/-- Settles O35: each word decodes to the operations of its row of R187, and each row's result is that of performing
them (R185). -/
theorem combinedWordResults : Obligations.CombinedWordResults := fun s =>
  ⟨execAll_decodeWord (ops := [.cla, .cle]) (by decide) rfl,
   execAll_decodeWord (ops := [.cla, .cme]) (by decide) rfl,
   execAll_decodeWord (ops := [.cma, .cme]) (by decide) (by rw [← word_not_eq_sub]; rfl),
   execAll_decodeWord (ops := [.cle, .inc]) (by decide) rfl,
   execAll_decodeWord (ops := [.cla, .hlt]) (by decide) rfl,
   execAll_decodeWord (ops := [.cla, .cma]) (by decide) (by rw [← not_zero_word]; rfl),
   execAll_decodeWord (ops := [.cla, .inc]) (by decide) rfl,
   execAll_decodeWord (ops := [.cma, .inc]) (by decide) (by rw [BitVec.neg_eq_not_add]; rfl),
   execAll_decodeWord (by decide) (execAll_cla_cma_inc s),
   execAll_decodeWord (ops := [.cle, .cme]) (by decide) rfl,
   execAll_decodeWord (ops := [.cle, .cir]) (by decide) (by rw [← rotatedRight_false]; rfl),
   execAll_decodeWord (ops := [.cle, .cil]) (by decide) (by rw [← rotatedLeft_false]; rfl),
   execAll_decodeWord (by decide) (execAll_cir_cil s),
   execAll_decodeWord (by decide) (execAll_spa_sna s),
   execAll_decodeWord (by decide) (execAll_spa_sza s),
   execAll_decodeWord (ops := [.cla, .sza]) (by decide) rfl,
   execAll_decodeWord (by decide) (execAll_all_registerReference s)⟩

/-! ## Subtraction (R148) -/

theorem execAll_cma_inc_add (m : AddrMode) (a : Addr) (s : State) :
    execAll [.cma, .inc, .add m a] s = .next { s.loadOperand m a with
      AC := sumWord (~~~s.AC + 1) (s.M.read (effectiveAddress m a s))
      E := carryOut (~~~s.AC + 1) (s.M.read (effectiveAddress m a s)) } := by
  rw [execAll_cons_of_next (exec_cma s), execAll_cons_of_next (exec_inc _), execAll_cons_of_next (exec_add m a _),
    execAll_nil, effectiveAddress_of_memory (t := s) rfl]
  rfl

/-- Settles O36: the complement plus one is the negative, so the sum is the difference (R148). -/
theorem subtractionByComplement : Obligations.SubtractionByComplement := fun m a s => by
  refine ⟨_, execAll_cma_inc_add m a s, ?_, rfl, rfl⟩
  calc sumWord (~~~s.AC + 1) (s.M.read (effectiveAddress m a s))
      = ~~~s.AC + 1 + s.M.read (effectiveAddress m a s) := sumWord_eq_add _ _
    _ = -s.AC + s.M.read (effectiveAddress m a s) := congrArg (· + _) (BitVec.neg_eq_not_add s.AC).symm
    _ = s.M.read (effectiveAddress m a s) - s.AC := by rw [BitVec.add_comm, BitVec.sub_eq_add_neg]

/-! ## The order of non-interfering operations (R186, R211) -/

/-- Settles O37: the table is computed from the reads and writes of the twelve operations (R186). -/
theorem interferenceTable : Obligations.InterferenceTable := by
  unfold Obligations.InterferenceTable
  decide

/-- What a resource holds. -/
abbrev Resource.Value : Resource → Type
  | .AC => Word
  | .PC => Addr
  | .INPR | .OUTR => Character
  | .E | .S | .FGI | .FGO | .IEN => Bool

/-- The value of a resource in a state. -/
def Resource.get : (r : Resource) → State → r.Value
  | .AC, s => s.AC
  | .E, s => s.E
  | .PC, s => s.PC
  | .S, s => s.S
  | .INPR, s => s.INPR
  | .OUTR, s => s.OUTR
  | .FGI, s => s.FGI
  | .FGO, s => s.FGO
  | .IEN, s => s.IEN

/-- The events an operation records. -/
def recorded : Instr → State → List Event
  | .inp, s => [.inp s.INPR s.FGI]
  | .out, s => [.out (lowByte s.AC) s.FGO]
  | _, _ => []

/-- States with the same resources, the same history and the same of what no opcode-7 operation writes are the same. -/
theorem state_eq_of_resources {s t : State} (hres : ∀ r : Resource, r.get s = r.get t) (hhist : s.hist = t.hist)
    (hrest : s.DR = t.DR ∧ s.AR = t.AR ∧ s.IR = t.IR ∧ s.TR = t.TR ∧ s.I = t.I ∧ s.R = t.R ∧ s.M = t.M ∧
      s.turns = t.turns) : s = t := by
  have hAC := hres .AC
  have hE := hres .E
  have hPC := hres .PC
  have hS := hres .S
  have hINPR := hres .INPR
  have hOUTR := hres .OUTR
  have hFGI := hres .FGI
  have hFGO := hres .FGO
  have hIEN := hres .IEN
  cases s; cases t
  simp_all [Resource.get]

section Operation

variable {i j : Instr} (hi : i.group ≠ .memoryReference)

include hi

/-- An operation changes only the resources it writes. -/
theorem perform_get_of_not_writes {r : Resource} (hr : r ∉ i.writes) (s : State) :
    r.get (perform i s) = r.get s := by
  have h := exec_eq_perform i s
  by_contra hne
  refine hr ?_
  cases r with
  | AC =>
    obtain ⟨m, a, rfl | rfl | rfl⟩ | rfl | rfl | rfl | rfl | rfl | rfl := exec_changes_AC h hne
    iterate 3 exact absurd rfl hi
    all_goals decide
  | E =>
    obtain ⟨m, a, rfl⟩ | rfl | rfl | rfl | rfl := exec_changes_E h hne
    · exact absurd rfl hi
    all_goals decide
  | PC =>
    obtain ⟨m, a, rfl | rfl | rfl⟩ | rfl | rfl | rfl | rfl | rfl | rfl := exec_changes_PC h hne
    iterate 3 exact absurd rfl hi
    all_goals decide
  | S => obtain rfl := exec_changes_S h hne; decide
  | INPR =>
    obtain ⟨-, -, -, -, hINPR, -⟩ := exec_keeps h
    exact absurd hINPR hne
  | OUTR => obtain rfl := exec_changes_OUTR h hne; decide
  | FGI => obtain rfl := exec_changes_FGI h hne; decide
  | FGO => obtain rfl := exec_changes_FGO h hne; decide
  | IEN => obtain rfl | rfl := exec_changes_IEN h hne <;> decide

/-- What no opcode-7 operation writes. -/
theorem perform_operation_keeps (s : State) :
    (perform i s).DR = s.DR ∧ (perform i s).AR = s.AR ∧ (perform i s).IR = s.IR ∧ (perform i s).TR = s.TR ∧
      (perform i s).I = s.I ∧ (perform i s).R = s.R ∧ (perform i s).M = s.M ∧ (perform i s).turns = s.turns := by
  have h := exec_eq_perform i s
  obtain ⟨hIR, hI, hR, hTR, -, hturns⟩ := exec_keeps h
  have hDR : (perform i s).DR = s.DR := by
    by_contra hne
    obtain ⟨m, a, rfl | rfl | rfl | rfl⟩ := exec_changes_DR h hne <;> exact hi rfl
  have hM : (perform i s).M = s.M := by
    by_contra hne
    obtain ⟨m, a, rfl | rfl | rfl⟩ := exec_changes_M h hne <;> exact hi rfl
  exact ⟨hDR, by_contra fun hne => hi (exec_changes_AR h hne), hIR, hTR, hI, hR, hM, hturns⟩

theorem perform_hist (s : State) : (perform i s).hist = s.hist ++ recorded i s := by
  cases i with
  | and m a | add m a | lda m a | sta m a | bun m a | bsa m a | isz m a => exact absurd rfl hi
  | inp | out => rfl
  | _ => exact (List.append_nil s.hist).symm

/-- What an operation writes and records depends only on what it reads and writes. -/
theorem perform_local {s t : State} (hagree : ∀ r ∈ i.reads ++ i.writes, r.get s = r.get t) :
    (∀ r ∈ i.writes, r.get (perform i s) = r.get (perform i t)) ∧ recorded i s = recorded i t := by
  have hs := exec_eq_perform i s
  have ht := exec_eq_perform i t
  generalize perform i s = s', perform i t = t' at hs ht
  cases i with
  | and m a | add m a | lda m a | sta m a | bun m a | bsa m a | isz m a => exact absurd rfl hi
  | _ =>
    cases hs; cases ht
    simp_all [Instr.reads, Instr.writes, Resource.get, recorded]

end Operation

/-- Non-interference, resource by resource (R186). -/
theorem writes_disjoint {i j : Instr} (h : i.interferes j = false) :
    (∀ r ∈ i.writes, r ∉ j.reads ++ j.writes) ∧ ∀ r ∈ j.writes, r ∉ i.reads ++ i.writes := by
  simp only [Instr.interferes, Bool.or_eq_false_iff, List.any_eq_false, List.contains_iff_mem, Bool.or_eq_true, not_or,
    List.mem_append] at h ⊢
  obtain ⟨hij, hji⟩ := h
  exact ⟨hij, fun r hr => ⟨hji r hr, fun hr' => (hij r hr').2 hr⟩⟩

/-- Only INP and OUT record, and any two of them interfere. -/
theorem recorded_eq_nil_or {i j : Instr} (h : i.interferes j = false) (s : State) :
    recorded i s = [] ∨ recorded j s = [] := by
  cases i with
  | inp | out =>
    cases j with
    | inp | out => exact absurd h (by decide)
    | _ => exact .inr rfl
  | _ => exact .inl rfl

/-- An operation does the same after one that writes nothing it reads or writes. -/
theorem perform_after {i j : Instr} (hi : i.group ≠ .memoryReference) (hj : j.group ≠ .memoryReference)
    (hdisjoint : ∀ r ∈ j.writes, r ∉ i.reads ++ i.writes) (s : State) :
    (∀ r ∈ i.writes, r.get (perform i (perform j s)) = r.get (perform i s)) ∧
      recorded i (perform j s) = recorded i s :=
  perform_local hi fun r hr => perform_get_of_not_writes hj (fun hw => hdisjoint r hw hr) s

theorem perform_comm {i j : Instr} (hi : i.group ≠ .memoryReference) (hj : j.group ≠ .memoryReference)
    (h : i.interferes j = false) (s : State) : perform j (perform i s) = perform i (perform j s) := by
  obtain ⟨hwi, hwj⟩ := writes_disjoint h
  obtain ⟨hgeti, hreci⟩ := perform_after hi hj hwj s
  obtain ⟨hgetj, hrecj⟩ := perform_after hj hi hwi s
  refine state_eq_of_resources (fun r => ?_) ?_ ?_
  · by_cases hri : r ∈ i.writes
    · have hrj : r ∉ j.writes := fun hr => hwi r hri (List.mem_append_right _ hr)
      rw [hgeti r hri, perform_get_of_not_writes hj hrj]
    · by_cases hrj : r ∈ j.writes
      · rw [hgetj r hrj, perform_get_of_not_writes hi hri]
      · simp only [perform_get_of_not_writes hi hri, perform_get_of_not_writes hj hrj]
  · rw [perform_hist hj, perform_hist hi, perform_hist hi, perform_hist hj, hreci, hrecj]
    obtain hnil | hnil := recorded_eq_nil_or h s <;> simp [hnil]
  · simp only [perform_operation_keeps hi, perform_operation_keeps hj, and_self]

/-- Settles O38: pairwise non-interfering operations commute on every state (`perform_comm`), and a reordering is a
sequence of such exchanges. -/
theorem nonInterferingOrderIsFree : Obligations.NonInterferingOrderIsFree := by
  intro ops reordered s hgroup hpairwise hperm
  have hcomm : ops.Pairwise fun i j => ∀ t, perform j (perform i t) = perform i (perform j t) :=
    hpairwise.imp_of_mem fun hi hj h => perform_comm (hgroup _ hi) (hgroup _ hj) h
  have hall := hcomm.forall_of_forall_of_flip (fun _ _ _ => rfl) (hcomm.imp fun h t => (h t).symm)
  rw [execAll_eq_performAll, execAll_eq_performAll]
  exact congrArg _ (hperm.foldl_eq' (fun _ hi _ hj t => hall hi hj t) s)

end Sys2Proof

/-! PROOFS. The step of the machine, one equation for each agent and each case of its turn (spec/40_instruction_cycle.md
R125, R127; spec/60_exceptions.md R226, R240, R241), and the statements about one or two steps. -/

namespace Sys2Proof

open Machine

/-! ## One equation for each case of a step -/

/-- At an instruction boundary the step performs the word at PC on the fetched state, and R is the request of the state
before (R125, R224). -/
theorem step_of_atInstruction {s : State} (h : AtInstruction s) :
    step s = .next
      { performAll (decodeWord (s.M.read s.PC)).ops (fetch { s with turns := s.turns.tail }) with
        R := interruptRequest s } := by
  obtain ⟨hS, hR, hturn⟩ := h
  rw [step_of_cpu_turn hS hturn, cpuStep_next]
  exact ⟨hS, .inr ⟨hR, instructionCycle_next.2 ⟨_, execAll_eq_performAll _ _, rfl⟩⟩⟩

theorem step_of_atInterrupt {s : State} (h : AtInterrupt s) :
    step s = .next (interruptCycle { s with turns := s.turns.tail }) := by
  obtain ⟨hS, hR, hturn⟩ := h
  rw [step_of_cpu_turn hS hturn, cpuStep_next]
  exact ⟨hS, .inl ⟨hR, rfl⟩⟩

theorem step_of_inputDevice {s : State} {c : Character} {rest : List Turn} (h : s.turns = .inputDevice c :: rest) :
    step s = .next ((inputDeviceStep c { s with turns := rest }).getD { s with turns := rest }) := by
  simp only [step, agentStep, h, passing]

theorem step_of_outputDevice {s : State} {rest : List Turn} (h : s.turns = .outputDevice :: rest) :
    step s = .next ((outputDeviceStep { s with turns := rest }).getD { s with turns := rest }) := by
  simp only [step, agentStep, h, passing]

/-- The CPU's turn in a halted machine passes (R127). -/
theorem step_of_halted_cpu {s : State} {rest : List Turn} (hS : s.S = false) (h : s.turns = .cpu :: rest) :
    step s = .next { s with turns := rest } := by
  simp [step, agentStep, h, hS, passing]

theorem step_of_halted {s : State} (hS : s.S = false) (h : s.turns = []) : step s = .fault .halted := by
  simp [step_of_no_turns h, cpuStep, hS]

/-- Those are all the cases there are. -/
theorem step_cases (s : State) :
    AtInstruction s ∨ AtInterrupt s ∨ (s.S = false ∧ s.turns = []) ∨
    (∃ rest, s.S = false ∧ s.turns = .cpu :: rest) ∨
    (∃ c rest, s.turns = .inputDevice c :: rest) ∨ (∃ rest, s.turns = .outputDevice :: rest) := by
  have running (hS : s.S = true) (hturn : nextTurn s = .cpu) : AtInstruction s ∨ AtInterrupt s := by
    cases hR : s.R with
    | false => exact .inl ⟨hS, hR, hturn⟩
    | true => exact .inr ⟨hS, hR, hturn⟩
  cases hturns : s.turns with
  | nil =>
    cases hS : s.S with
    | false => simp
    | true => exact (running hS (nextTurn_of_no_turns hturns)).imp_right .inl
  | cons turn rest =>
    cases turn with
    | cpu =>
      cases hS : s.S with
      | false => simp
      | true => exact (running hS (nextTurn_of_cons hturns)).imp_right .inl
    | inputDevice c => simp
    | outputDevice => simp

/-! ## The statements about one step -/

/-- Settles O26: the state of the statement is the fetched one, and `step_of_atInstruction` performs the word on it. -/
theorem stepRunsTheDecodedWord : Obligations.StepRunsTheDecodedWord := by
  intro s t hs h
  have hperform := (execAll_eq_performAll _ _).symm.trans h
  rw [step_of_atInstruction hs, ← Host.Outcome.next.inj hperform]
  rfl

/-- Settles O27: performing a list of one instruction is `exec` of it. -/
theorem stepRunsOneInstruction : Obligations.StepRunsOneInstruction := by
  intro s t i hs hops h
  refine stepRunsTheDecodedWord s t hs ?_
  rw [hops, execAll_cons_of_next h, execAll_nil]

/-- Settles O28: of the cases of a step only the halted machine with no turn left has no next state. -/
theorem everyStepCompletes : Obligations.EveryStepCompletes := by
  intro s h
  obtain hs | hs | ⟨hS, hturns⟩ | ⟨rest, hS, hturns⟩ | ⟨c, rest, hturns⟩ | ⟨rest, hturns⟩ := step_cases s
  · exact ⟨_, step_of_atInstruction hs⟩
  · exact ⟨_, step_of_atInterrupt hs⟩
  · simp [hS, hturns] at h
  · exact ⟨_, step_of_halted_cpu hS hturns⟩
  · exact ⟨_, step_of_inputDevice hturns⟩
  · exact ⟨_, step_of_outputDevice hturns⟩

/-- Settles O34: neither word selects an operation, so performing it leaves the fetched state (R100). -/
theorem emptyWordsDoNothing : Obligations.EmptyWordsDoNothing := by
  intro s x hs hword
  have hnone : (decodeWord (s.M.read s.PC)).ops = [] := by
    obtain h | h := hword
    · rw [h]; decide
    · rw [h, inputOutputLowBitsIgnored 0#6 x 0#6]; decide
  rw [step_of_atInstruction hs, hnone]
  rfl

/-- Settles O39: the step is the interrupt cycle, a store of the return address at 0x000 (R226). -/
theorem interruptCycleResult : Obligations.InterruptCycleResult := fun s hs =>
  ⟨_, step_of_atInterrupt hs, by rw [← wordOf_eq]; rfl,
   (Memory.read_write_same s.M _ _).trans (wordOf_eq s.PC), fun _ hb => Memory.read_write_other s.M _ hb⟩

/-- Settles O40: the R of `step_of_atInstruction` is read from the state before (R224). -/
theorem requestIsSampledBeforeTheInstruction : Obligations.RequestIsSampledBeforeTheInstruction := fun _ hs =>
  ⟨_, step_of_atInstruction hs, rfl⟩

/-- Settles O45: the two cases of the input device's step (R240). -/
theorem inputDeviceTurn : Obligations.InputDeviceTurn := by
  intro s c rest h
  rw [step_of_inputDevice h]
  constructor
  · intro hF; simp [inputDeviceStep, hF]
  · intro hF; simp [inputDeviceStep, hF]

/-- Settles O46: the two cases of the output device's step (R241). -/
theorem outputDeviceTurn : Obligations.OutputDeviceTurn := by
  intro s rest h
  rw [step_of_outputDevice h]
  constructor
  · intro hF; simp [outputDeviceStep, hF]
  · intro hF; simp [outputDeviceStep, hF]

/-- Settles O54: a machine with S = 0 and no turn left is the one case without a next state. -/
theorem haltedMachineStops : Obligations.HaltedMachineStops := fun _ => step_of_halted

/-! ## The statements about two steps -/

/-- A step over the word of one instruction (R125). -/
theorem step_of_encode {s t : State} {i : Instr} (hs : AtInstruction s) (hword : s.M.read s.PC = i.encode)
    (h : exec i (fetch { s with turns := s.turns.tail }) = .next t) :
    step s = .next { t with R := interruptRequest s } :=
  stepRunsOneInstruction s t i hs (by rw [hword, decodeWord_encode]) h

theorem atInstruction_of_nextTurn {s : State} (hturn : nextTurn s = .cpu) (hS : s.S = true) (hR : s.R = false) :
    AtInstruction s := ⟨hS, hR, hturn⟩

/-- A CPU step leaves in IR the word it fetched. -/
theorem step_IR {s : State} (hs : AtInstruction s) : ∃ t, step s = .next t ∧ t.IR = s.M.read s.PC := by
  refine ⟨_, step_of_atInstruction hs, ?_⟩
  refine performAll_keeps (P := fun u => u.IR = s.M.read s.PC) (fun i _ u hu => ?_) rfl
  obtain ⟨hIR, -⟩ := exec_keeps (exec_eq_perform i u)
  exact hIR.trans hu

/-- Settles O31: the word the next step fetches is read after the store, at the address it went to (R73). -/
theorem storeIsSeenByTheNextFetch : Obligations.StoreIsSeenByTheNextFetch := by
  intro s hs hrequest hword
  have ⟨hS, _, _⟩ := hs
  have hread : (s.M.write (s.PC + 1) s.AC).read (s.PC + 1) = s.AC := Memory.read_write_same _ _ _
  refine ⟨_, step_of_encode (i := .sta .direct (s.PC + 1)) hs hword (exec_sta _ _ _), hread, fun hturn => ?_⟩
  obtain ⟨u, hu, hIR⟩ := step_IR (atInstruction_of_nextTurn hturn hS hrequest)
  exact ⟨u, hu, hIR.trans hread⟩

/-- Settles O41: R is the request, and the next CPU step is then the interrupt cycle, which saves PC and writes M[0] alone
(R225). -/
theorem interruptsArePrecise : Obligations.InterruptsArePrecise := by
  intro s t hs hrequest ht hS
  have hR : t.R = true := by
    rw [step_of_atInstruction hs] at ht
    exact Host.Outcome.next.inj ht ▸ hrequest
  refine ⟨hR, fun hturn => ⟨_, step_of_atInterrupt ⟨hS, hR, hturn⟩, rfl,
    (Memory.read_write_same t.M _ _).trans (wordOf_eq t.PC), fun _ hb => Memory.read_write_other t.M _ hb,
    rfl, rfl, rfl, rfl, rfl, rfl, rfl, rfl, rfl, rfl⟩⟩

/-- Settles O42: the request is 0 before ION and 1 before the instruction after it (R224). -/
theorem ionDelaysTheInterrupt : Obligations.IonDelaysTheInterrupt := by
  intro s hs hIEN hflag hword
  have ⟨hS, _, _⟩ := hs
  have hnone : interruptRequest s = false := by simp [interruptRequest, hIEN]
  have hup : (s.FGI || s.FGO) = true := by simpa using hflag
  refine ⟨_, step_of_encode (i := .ion) hs hword (exec_ion _), hS, hnone, rfl, fun hturn => ?_⟩
  exact ⟨_, step_of_atInstruction (atInstruction_of_nextTurn hturn hS hnone), hup⟩

/-- Settles O43: after ION the next word is `BUN 0 I`, whose effective address is the low 12 bits of M[0] (R228). -/
theorem interruptReturn : Obligations.InterruptReturn := by
  intro s hs hIEN hion hbun
  have ⟨hS, _, _⟩ := hs
  have hnone : interruptRequest s = false := by simp [interruptRequest, hIEN]
  refine ⟨_, step_of_encode (i := .ion) hs hion (exec_ion _), rfl, rfl, fun hturn => ?_⟩
  exact ⟨_, step_of_encode (i := .bun .indirect 0) (atInstruction_of_nextTurn hturn hS hnone) hbun (exec_bun _ _ _),
    rfl, rfl, rfl, rfl, rfl, hS, rfl, rfl, rfl, rfl, rfl⟩

/-- Settles O56: BSA stores the zero-extended return address, and `BUN a I` takes the low 12 bits of that word
(R145, R144). -/
theorem subroutineCallReturns : Obligations.SubroutineCallReturns := by
  intro s a hs hcall
  refine ⟨_, step_of_encode (i := .bsa .direct a) hs hcall (exec_bsa _ _ _), rfl, fun u hu hbun hkept => ?_⟩
  refine ⟨_, step_of_encode (i := .bun .indirect a) hu hbun (exec_bun _ _ _), ?_⟩
  calc addressOf (u.M.read a) = addressOf ((s.M.write a (wordOf (s.PC + 1))).read a) := congrArg addressOf hkept
    _ = s.PC + 1 := by rw [Memory.read_write_same, addressOf_wordOf]

end Sys2Proof

/-! PROOFS. What every step of every agent keeps (spec/00_scope.md R12, R13; spec/10_state.md section 2;
spec/60_exceptions.md sections 2 and 3), and the statements about runs of every length. -/

namespace Sys2Proof

open Machine

/-! ## What one instruction keeps -/

theorem exec_keeps_IEN {i : Instr} {s t : State} (h : exec i s = .next t) (hi : i ≠ .ion) (hIEN : s.IEN = false) :
    t.IEN = false := by
  by_contra hne
  obtain rfl | rfl := exec_changes_IEN h (fun heq => hne (heq.trans hIEN))
  · exact hi rfl
  · cases h; exact hne rfl

/-- An instruction appends to the history. -/
theorem exec_hist_grows {i : Instr} {s t : State} (h : exec i s = .next t) : ∃ e, t.hist = s.hist ++ e := by
  by_cases hne : t.hist = s.hist
  · exact ⟨[], hne.trans (List.append_nil s.hist).symm⟩
  · obtain rfl | rfl := exec_changes_hist h hne <;> cases h <;> exact ⟨_, rfl⟩

/-- An instruction keeps the canonical form of memory. -/
theorem exec_keeps_wf {i : Instr} {s t : State} (h : exec i s = .next t) (hwf : s.M.wf = true) : t.M.wf = true := by
  by_cases hne : t.M = s.M
  · rw [hne, hwf]
  · obtain ⟨m, a, rfl | rfl | rfl⟩ := exec_changes_M h hne <;> cases h <;> exact Memory.wf_write hwf _ _

theorem lastOutput_append (h : List Event) (e : Event) :
    lastOutput (h ++ [e]) = match e with | .out c _ => c | .inp _ _ => lastOutput h := by
  rw [lastOutput, List.foldl_append]
  cases e <;> rfl

/-- An instruction keeps OUTR the last character sent: OUT records the character it sends, INP records none. -/
theorem exec_keeps_lastOutput {i : Instr} {s t : State} (h : exec i s = .next t) (hout : s.OUTR = lastOutput s.hist) :
    t.OUTR = lastOutput t.hist := by
  by_cases hhist : t.hist = s.hist
  · have hOUTR : t.OUTR = s.OUTR := by
      by_contra hne
      obtain rfl := exec_changes_OUTR h hne
      cases h
      simp at hhist
    rw [hOUTR, hhist, hout]
  · obtain rfl | rfl := exec_changes_hist h hhist <;> cases h <;> simp [lastOutput_append, hout]

/-! ## Invariants of every step -/

/-- What the word's instructions keep from the fetched state on holds of the state an instruction cycle leaves, but for
R. -/
theorem instructionCycle_keeps {P : State → Prop} {s t : State}
    (hcycle : instructionCycle { s with turns := s.turns.tail } = .next t)
    (keeps : ∀ i ∈ (decodeWord (s.M.read s.PC)).ops, ∀ v w, P v → exec i v = .next w → P w)
    (hfetched : P (fetch { s with turns := s.turns.tail })) :
    ∃ u, P u ∧ t = { u with R := interruptRequest s } := by
  obtain ⟨u, hu, ht⟩ := instructionCycle_next.1 hcycle
  exact ⟨u, execAll_keeps keeps _ u hfetched hu, ht⟩

/-- Only an instruction cycle can change S or the history. -/
theorem step_keeps_S_hist {s t : State} (h : step s = .next t) :
    (AtInstruction s ∧ instructionCycle { s with turns := s.turns.tail } = .next t) ∨ (t.S = s.S ∧ t.hist = s.hist) := by
  obtain hcycle | ⟨-, rfl⟩ | ⟨rest, rfl⟩ | ⟨c, rest, -, rfl⟩ | ⟨rest, -, rfl⟩ := step_next_cases h
  · exact .inl hcycle
  · exact .inr ⟨rfl, rfl⟩
  · exact .inr ⟨rfl, rfl⟩
  · exact .inr ⟨rfl, rfl⟩
  · exact .inr ⟨rfl, rfl⟩

/-- Settles O44: only ION sets IEN, and with IEN = 0 the request that R takes is 0. -/
theorem noIonNoInterrupt : Obligations.NoIonNoInterrupt := by
  intro s t hIEN hR hion h
  obtain ⟨hs, hcycle⟩ | ⟨-, rfl⟩ | ⟨rest, rfl⟩ | ⟨c, rest, -, rfl⟩ | ⟨rest, -, rfl⟩ := step_next_cases h
  · have keeps : ∀ i ∈ (decodeWord (s.M.read s.PC)).ops, ∀ v w, v.IEN = false → exec i v = .next w → w.IEN = false :=
      fun i hi _ _ hv hw => exec_keeps_IEN hw (fun heq => hion hs (heq ▸ hi)) hv
    obtain ⟨u, hu, rfl⟩ := instructionCycle_keeps (P := fun v => v.IEN = false) hcycle keeps hIEN
    exact ⟨hu, by simp [interruptRequest, hIEN]⟩
  · exact ⟨rfl, rfl⟩
  · exact ⟨hIEN, hR⟩
  · exact ⟨hIEN, hR⟩
  · exact ⟨hIEN, hR⟩

/-- Settles O47: no instruction writes INPR, and the input device does only while FGI is down. -/
theorem flaggedCharacterIsKept : Obligations.FlaggedCharacterIsKept := by
  intro s t hFGI h
  obtain ⟨-, hcycle⟩ | ⟨-, rfl⟩ | ⟨rest, rfl⟩ | ⟨c, rest, hdown, rfl⟩ | ⟨rest, -, rfl⟩ := step_next_cases h
  · have keeps (i : Instr) (v w : State) (hv : v.INPR = s.INPR) (hw : exec i v = .next w) : w.INPR = s.INPR := by
      obtain ⟨-, -, -, -, hINPR, -⟩ := exec_keeps hw
      exact hINPR.trans hv
    obtain ⟨u, hu, rfl⟩ := instructionCycle_keeps (P := fun v => v.INPR = s.INPR) hcycle (fun i _ => keeps i) rfl
    exact hu
  · rfl
  · rfl
  · exact absurd (hFGI.symm.trans hdown) (by decide)
  · rfl

/-- A step appends to the history. -/
theorem step_hist_grows {s t : State} (h : step s = .next t) : ∃ e, t.hist = s.hist ++ e := by
  obtain ⟨-, hcycle⟩ | ⟨-, hsame⟩ := step_keeps_S_hist h
  · have keeps (i : Instr) (v w : State) (hv : ∃ e, v.hist = s.hist ++ e) (hw : exec i v = .next w) :
        ∃ e, w.hist = s.hist ++ e := by
      obtain ⟨e, he⟩ := hv
      obtain ⟨e', he'⟩ := exec_hist_grows hw
      exact ⟨e ++ e', by rw [he', he, List.append_assoc]⟩
    obtain ⟨u, hu, rfl⟩ := instructionCycle_keeps (P := fun v => ∃ e, v.hist = s.hist ++ e) hcycle
      (fun i _ => keeps i) ⟨[], (List.append_nil _).symm⟩
    exact hu
  · exact ⟨[], hsame.trans (List.append_nil _).symm⟩

/-- Settles O48: every instruction appends, and only INP and OUT append anything. -/
theorem historyOnlyGrows : Obligations.HistoryOnlyGrows := by
  intro s t h
  refine ⟨step_hist_grows h, fun hne => ?_⟩
  obtain ⟨hs, hcycle⟩ | ⟨-, hsame⟩ := step_keeps_S_hist h
  · refine ⟨hs, by_contra fun hnone => hne ?_⟩
    have keeps : ∀ i ∈ (decodeWord (s.M.read s.PC)).ops, ∀ v w, v.hist = s.hist → exec i v = .next w →
        w.hist = s.hist := by
      intro i hi v w hv hw
      by_contra hchange
      obtain rfl | rfl := exec_changes_hist hw (fun heq => hchange (heq.trans hv))
      · exact hnone (.inl hi)
      · exact hnone (.inr hi)
    obtain ⟨u, hu, rfl⟩ := instructionCycle_keeps (P := fun v => v.hist = s.hist) hcycle keeps rfl
    exact hu
  · exact absurd hsame hne

/-- Settles O52: a step that can write S is the CPU's, which has S = 1, and of the instructions only HLT writes it. -/
theorem onlyHltStopsTheMachine : Obligations.OnlyHltStopsTheMachine := by
  intro s t h
  obtain ⟨hs, hcycle⟩ | ⟨hsame, -⟩ := step_keeps_S_hist h
  · have ⟨hS, _, _⟩ := hs
    refine ⟨fun _ => hS, fun _ hstopped => ⟨hs, by_contra fun hnone => ?_⟩⟩
    have keeps : ∀ i ∈ (decodeWord (s.M.read s.PC)).ops, ∀ v w, v.S = true → exec i v = .next w → w.S = true := by
      intro i hi v w hv hw
      by_contra hchange
      obtain rfl := exec_changes_S hw (fun heq => hchange (heq.trans hv))
      exact hnone hi
    obtain ⟨u, hu, rfl⟩ := instructionCycle_keeps (P := fun v => v.S = true) hcycle keeps hS
    exact absurd (hu.symm.trans hstopped) (by decide)
  · exact ⟨fun hS => hsame ▸ hS, fun hS hstopped => absurd (hS.symm.trans (hsame.symm.trans hstopped)) (by decide)⟩

/-! ## The boundary invariant -/

theorem exec_keeps_boundaryInvariant {i : Instr} {s t : State} (hs : BoundaryInvariant s) (h : exec i s = .next t) :
    BoundaryInvariant t := by
  obtain ⟨hwf, hI, hTR, hout⟩ := hs
  obtain ⟨hIR', hI', -, hTR', -, -⟩ := exec_keeps h
  exact ⟨exec_keeps_wf h hwf, by rw [hI', hI, hIR'], by rw [hTR', ← hTR], exec_keeps_lastOutput h hout⟩

/-- The fetch sets I to bit 15 of the word it puts in IR. -/
theorem fetch_keeps_boundaryInvariant {s : State} (hs : BoundaryInvariant s) : BoundaryInvariant (fetch s) := by
  obtain ⟨hwf, -, hTR, hout⟩ := hs
  exact ⟨hwf, rfl, hTR, hout⟩

/-- The interrupt cycle sets TR to the zero-extended PC. -/
theorem interruptCycle_keeps_boundaryInvariant {s : State} (hs : BoundaryInvariant s) :
    BoundaryInvariant (interruptCycle s) := by
  obtain ⟨hwf, hI, -, hout⟩ := hs
  exact ⟨Memory.wf_write hwf _ _, hI, (wordOf_addressOf_wordOf s.PC).symm, hout⟩

/-- Settles O51, case by case of a step: the CPU's cycles keep the invariant by the three lemmas above, and the devices
and a passed turn touch nothing it speaks of. -/
theorem everyStepKeepsTheBoundaryInvariant : Obligations.EveryStepKeepsTheBoundaryInvariant := by
  intro s t hs h
  obtain ⟨-, hcycle⟩ | ⟨-, rfl⟩ | ⟨rest, rfl⟩ | ⟨c, rest, -, rfl⟩ | ⟨rest, -, rfl⟩ := step_next_cases h
  · have hs' : BoundaryInvariant { s with turns := s.turns.tail } := hs
    obtain ⟨u, hu, rfl⟩ := instructionCycle_keeps hcycle (fun _ _ _ _ => exec_keeps_boundaryInvariant)
      (fetch_keeps_boundaryInvariant hs')
    exact hu
  · have hs' : BoundaryInvariant { s with turns := s.turns.tail } := hs
    exact interruptCycle_keeps_boundaryInvariant hs'
  · exact hs
  · exact hs
  · exact hs

/-- Settles O50: memory lists nothing, and every register is 0. -/
theorem resetMeetsTheBoundaryInvariant : Obligations.ResetMeetsTheBoundaryInvariant :=
  ⟨State.reset_memory_wf, rfl, rfl, rfl⟩

/-- Settles O49: the fields of `initialise` are those of the statement (R43). -/
theorem initialisationValues : Obligations.InitialisationValues := ⟨fun _ _ _ _ => rfl, rfl⟩

/-! ## The halted machine -/

/-- `t` is the halted machine `s` but for what the devices and the schedule change. -/
def HaltedLike (s t : State) : Prop :=
  t.S = false ∧ t = { s with INPR := t.INPR, FGI := t.FGI, FGO := t.FGO, turns := t.turns }

theorem HaltedLike.step {s t u : State} (ht : HaltedLike s t) (h : step t = .next u) : HaltedLike s u := by
  obtain ⟨hS, hst⟩ := ht
  obtain ⟨⟨hrun, -, -⟩, -⟩ | ⟨⟨hrun, -, -⟩, -⟩ | ⟨rest, rfl⟩ | ⟨c, rest, -, rfl⟩ | ⟨rest, -, rfl⟩ := step_next_cases h
  · exact absurd (hS.symm.trans hrun) (by decide)
  · exact absurd (hS.symm.trans hrun) (by decide)
  · exact ⟨hS, by rw [hst]⟩
  · exact ⟨hS, by rw [hst]⟩
  · exact ⟨hS, by rw [hst]⟩

/-- Settles O53: every step keeps `HaltedLike`, so every run does. -/
theorem haltedIsFinal : Obligations.HaltedIsFinal := by
  intro n s t hs h
  have hrun : HaltedLike s t := runFrom_keeps (fun _ _ hu => hu.step) n s t ⟨hs, rfl⟩ h
  obtain ⟨-, ht⟩ := hrun
  exact ht

/-! ## The hidden registers -/

/-- The state with other values in AR, IR, I, DR and TR. -/
def withHidden (s : State) (ar : Addr) (ir : Word) (i : Bool) (dr tr : Word) : State :=
  { s with AR := ar, IR := ir, I := i, DR := dr, TR := tr }

theorem SameVisible.exists_withHidden {s t : State} (h : SameVisible s t) :
    ∃ ar ir i dr tr, t = withHidden s ar ir i dr tr := ⟨t.AR, t.IR, t.I, t.DR, t.TR, h.symm⟩

/-- No instruction reads a hidden register before it has written it. -/
theorem perform_sameVisible {s t : State} (h : SameVisible s t) (i : Instr) :
    SameVisible (perform i s) (perform i t) := by
  obtain ⟨ar, ir, b, dr, tr, rfl⟩ := h.exists_withHidden
  cases i <;> rfl

theorem performAll_sameVisible {s t : State} (h : SameVisible s t) (ops : List Instr) :
    SameVisible (performAll ops s) (performAll ops t) := by
  induction ops generalizing s t with
  | nil => exact h
  | cons i rest ih => exact ih (perform_sameVisible h i)

/-- The outcomes of two steps or runs: next states that look alike, or the same stop. -/
def SameOutcome : Host.Outcome State Fault Refusal → Host.Outcome State Fault Refusal → Prop
  | .next s, .next t => SameVisible s t
  | .fault f, .fault g => f = g
  | .refused p, .refused q => p = q
  | _, _ => False

theorem SameVisible.setR {s t : State} (h : SameVisible s t) (r : Bool) :
    SameVisible { s with R := r } { t with R := r } := by
  obtain ⟨ar, ir, i, dr, tr, rfl⟩ := h.exists_withHidden
  rfl

/-- One step of the simulation: two states that look alike are in the same case of a step, and fetch the same word. -/
theorem step_sameVisible {s t : State} (h : SameVisible s t) : SameOutcome (step s) (step t) := by
  obtain ⟨ar, ir, b, dr, tr, rfl⟩ := h.exists_withHidden
  obtain hs | hs | ⟨hS, hturns⟩ | ⟨rest, hS, hturns⟩ | ⟨c, rest, hturns⟩ | ⟨rest, hturns⟩ := step_cases s
  · have ht : AtInstruction (withHidden s ar ir b dr tr) := hs
    have hfetched : SameVisible (fetch { s with turns := s.turns.tail })
        (fetch { withHidden s ar ir b dr tr with turns := s.turns.tail }) := rfl
    rw [step_of_atInstruction hs, step_of_atInstruction ht]
    exact (performAll_sameVisible hfetched (decodeWord (s.M.read s.PC)).ops).setR (interruptRequest s)
  · have ht : AtInterrupt (withHidden s ar ir b dr tr) := hs
    rw [step_of_atInterrupt hs, step_of_atInterrupt ht]
    rfl
  · rw [step_of_halted hS hturns, step_of_halted (s := withHidden s ar ir b dr tr) hS hturns]
    rfl
  · rw [step_of_halted_cpu hS hturns, step_of_halted_cpu (s := withHidden s ar ir b dr tr) hS hturns]
    rfl
  · rw [step_of_inputDevice hturns, step_of_inputDevice (s := withHidden s ar ir b dr tr) hturns]
    cases hF : s.FGI <;> simp only [inputDeviceStep, withHidden, hF] <;> rfl
  · rw [step_of_outputDevice hturns, step_of_outputDevice (s := withHidden s ar ir b dr tr) hturns]
    cases hF : s.FGO <;> simp only [outputDeviceStep, withHidden, hF] <;> rfl

theorem SameOutcome.cases {x y : Host.Outcome State Fault Refusal} (h : SameOutcome x y) :
    (∃ s t, x = .next s ∧ y = .next t ∧ SameVisible s t) ∨ (∃ f, x = .fault f ∧ y = .fault f) ∨
      (∃ p, x = .refused p ∧ y = .refused p) := by
  cases x with
  | next s =>
    cases y with
    | next t => exact .inl ⟨s, t, rfl, rfl, h⟩
    | fault _ | refused _ => exact h.elim
  | fault f =>
    cases y with
    | fault g => exact .inr (.inl ⟨g, congrArg _ h, rfl⟩)
    | next _ | refused _ => exact h.elim
  | refused p =>
    cases y with
    | refused q => exact .inr (.inr ⟨q, congrArg _ h, rfl⟩)
    | next _ | fault _ => exact h.elim

theorem runFrom_sameVisible (n : Nat) {s t : State} (h : SameVisible s t) :
    SameOutcome (runFrom n s) (runFrom n t) := by
  induction n generalizing s t with
  | zero => exact h
  | succ n ih =>
    rw [runFrom_succ, runFrom_succ]
    obtain ⟨s', t', hs, ht, hst⟩ | ⟨f, hs, ht⟩ | ⟨p, hs, ht⟩ := (step_sameVisible h).cases
    · rw [hs, ht]; exact ih hst
    · rw [hs, ht]; rfl
    · rw [hs, ht]; rfl

/-- Settles O55: looking alike is a simulation (`step_sameVisible`), so it lasts over runs of every length. -/
theorem hiddenRegistersAreNeverRead : Obligations.HiddenRegistersAreNeverRead := by
  intro n s t h
  exact runFrom_sameVisible n h

end Sys2Proof

/-! PROOFS. The canonical form of memory (log entries 1 and 2) and the assembler (spec/30_encoding.md R103 to R107). -/

namespace Sys2Proof

open Machine

/-! ## The canonical form is canonical -/

/-- Below its lowest address a list of cells sets nothing. -/
theorem lookup_of_lt_lowest {m : Memory} {lowest k : Nat} (hm : Memory.wfFrom lowest m = true) (hk : k < lowest) :
    Memory.lookup k m = Config.unlistedWord := by
  induction m generalizing lowest with
  | nil => rfl
  | cons c rest ih =>
    obtain ⟨a, v⟩ := c
    obtain ⟨hlow, -, -, hrest⟩ := (Memory.wfFrom_cons ..).1 hm
    have hne : ¬ a = k := by omega
    rw [Memory.lookup, if_neg hne]
    exact ih hrest (by omega)

/-- A list of cells in the canonical form reads differently from one that starts above its first address. -/
theorem lookup_first_ne {m rest : Memory} {lowest a : Nat} {v : Word} (hm : Memory.wfFrom lowest m = true)
    (hv : v ≠ Config.unlistedWord) (ha : a < lowest) :
    Memory.lookup a ((a, v) :: rest) ≠ Memory.lookup a m := by
  rw [Memory.lookup, if_pos rfl, lookup_of_lt_lowest hm ha]
  exact hv

/-- Two canonical lists that read alike have the same first cell: were one address lower, only its own list would set it.
-/
theorem eq_of_lookup_eq {m n : Memory} {lowest lowest' : Nat} (hm : Memory.wfFrom lowest m = true)
    (hn : Memory.wfFrom lowest' n = true)
    (hread : ∀ k, k < Config.memorySize → Memory.lookup k m = Memory.lookup k n) : m = n := by
  induction m generalizing n lowest lowest' with
  | nil =>
    cases n with
    | nil => rfl
    | cons c rest =>
      obtain ⟨b, w⟩ := c
      obtain ⟨-, hsize, hw, -⟩ := (Memory.wfFrom_cons ..).1 hn
      exact absurd (hread b hsize).symm (lookup_first_ne (lowest := b + 1) rfl hw (by omega))
  | cons c m' ih =>
    obtain ⟨a, v⟩ := c
    obtain ⟨-, hasize, hv, hm'⟩ := (Memory.wfFrom_cons ..).1 hm
    cases n with
    | nil => exact absurd (hread a hasize) (lookup_first_ne (lowest := a + 1) rfl hv (by omega))
    | cons d n' =>
      obtain ⟨b, w⟩ := d
      obtain ⟨-, hbsize, hw, hn'⟩ := (Memory.wfFrom_cons ..).1 hn
      obtain hlt | rfl | hlt := Nat.lt_trichotomy a b
      · exact absurd (hread a hasize)
          (lookup_first_ne (lowest := b) ((Memory.wfFrom_cons ..).2 ⟨le_rfl, hbsize, hw, hn'⟩) hv hlt)
      · have hvw : v = w := by simpa [Memory.lookup] using hread a hasize
        have hrest : m' = n' := ih hm' hn' fun k hk => by
          obtain rfl | hne := eq_or_ne a k
          · rw [lookup_of_lt_lowest hm' (by omega), lookup_of_lt_lowest hn' (by omega)]
          · simpa [Memory.lookup, hne] using hread k hk
        rw [hvw, hrest]
      · exact absurd (hread b hbsize).symm
          (lookup_first_ne (lowest := a) ((Memory.wfFrom_cons ..).2 ⟨le_rfl, hasize, hv, hm'⟩) hw hlt)

/-- Settles O57: each address below 4096 is a 12-bit address, so reading alike is looking up alike (`eq_of_lookup_eq`). -/
theorem equalMemoriesAreEqualData : Obligations.EqualMemoriesAreEqualData := by
  intro m n hm hn hread
  refine eq_of_lookup_eq hm hn fun k hk => ?_
  have hnum : (BitVec.ofNat 12 k).toNat = k := (BitVec.toNat_ofNat k 12).trans (Nat.mod_eq_of_lt hk)
  rw [← hnum]
  exact hread (BitVec.ofNat 12 k)

/-! ## The memory image (R107) -/

/-- Storing words one after another keeps the canonical form. -/
theorem foldl_write_wf {words : List (Addr × Word)} {m : Memory} (hm : m.wf = true) :
    (words.foldl (fun m c => m.write c.1 c.2) m).wf = true := by
  induction words generalizing m with
  | nil => exact hm
  | cons c rest ih => exact ih (Memory.wf_write hm c.1 c.2)

/-- Storing words leaves every other address as it was. -/
theorem foldl_write_read_other {words : List (Addr × Word)} {m : Memory} {a : Addr} (ha : a ∉ words.map Prod.fst) :
    (words.foldl (fun m c => m.write c.1 c.2) m).read a = m.read a := by
  induction words generalizing m with
  | nil => rfl
  | cons c rest ih =>
    obtain ⟨hne, hrest⟩ := List.ne_and_not_mem_of_not_mem_cons ha
    exact (ih hrest).trans (Memory.read_write_other m c.2 hne)

/-- Stored at different addresses, each word is read at its own: no later one replaces it. -/
theorem foldl_write_read {words : List (Addr × Word)} {m : Memory} (hnodup : (words.map Prod.fst).Nodup)
    {c : Addr × Word} (hc : c ∈ words) : (words.foldl (fun m c => m.write c.1 c.2) m).read c.1 = c.2 := by
  induction words generalizing m with
  | nil => simp at hc
  | cons d rest ih =>
    obtain ⟨hfirst, hrest⟩ := List.nodup_cons.1 hnodup
    obtain rfl | hc := List.mem_cons.1 hc
    · exact (foldl_write_read_other hfirst).trans (Memory.read_write_same m c.1 c.2)
    · exact ih hrest hc

/-- Settles O60: the image is the words stored one after another in the empty memory. -/
theorem imageHoldsTheWords : Obligations.ImageHoldsTheWords := fun _ hnodup =>
  ⟨foldl_write_wf Memory.wf_empty, fun _ hc => foldl_write_read hnodup hc,
   fun a ha => (foldl_write_read_other ha).trans (Memory.read_empty a)⟩

/-! ## The words of lines (R103, R105) -/

/-- Settles O58: within the range the two's complement reading of `BitVec.ofInt` is the number (R105). -/
theorem decimalConstants : Obligations.DecimalConstants := by
  intro n
  constructor
  · intro hlow hhigh
    exact ⟨BitVec.ofInt 16 n, if_pos ⟨hlow, hhigh⟩, BitVec.toInt_ofInt_eq_self (by decide) hlow (by omega)⟩
  · intro hout
    exact if_neg (by omega)

/-- Settles O59: the line's word is that of its opcode, mode and address, which `decodeWord_memoryReferenceWord` decodes
(R103, R95). -/
theorem assembledLineDecodes : Obligations.AssembledLineDecodes := by
  intro symbols op m operand a i hoperand hrow
  exact ⟨memoryReferenceWord op m a, by simp only [lineWord, hoperand], decodeWord_memoryReferenceWord hrow⟩

end Sys2Proof
